-- ==== Sys2Proof/Word.lean ====
section
/-! DEFINITION. The value types of the codec (spec/10_state.md rules R9 to R15): byte, channel value, flags, Frame,
the 25-byte wire frame, the format errors, the result of DECODE, and what a caller hands to a unit. -/

namespace Sys2Proof

/-- A byte (spec/00_scope.md section 5.1; bit 0 is the least significant, R25). -/
abbrev Byte := BitVec 8

/-- R9: a channel value, "a 16-bit unsigned integer whose only 11 least-significant bits are meaningful". -/
abbrev Channel := BitVec 16

/-- R10: exactly 16 channel values, indexed 0 to 15. -/
abbrev Channels := Vector Channel 16

/-- R11: four independent boolean status bits. The reserved bits of the flag byte are not part of it. -/
structure Flags where
  ch17 : Bool
  ch18 : Bool
  framelost : Bool
  failsafe : Bool
  deriving DecidableEq, Repr

/-- R12: "an immutable value composed of exactly one Channels and one Flags"; equality is structural (R13). -/
structure Frame where
  ch : Channels
  flags : Flags
  deriving DecidableEq, Repr

/-- R14: the wire frame, a sequence of exactly 25 bytes, offset 0 first; the length is part of the type. -/
abbrev Frame25 := Vector Byte 25

/-- R15: the single error taxonomy. `actual` is the offending byte's actual value. -/
inductive FrameFormatError where
  /-- byte 0 did not equal 0x0F (R62) -/
  | invalidStartByte (actual : Byte)
  /-- byte 24 did not equal 0x00, byte 0 being right (R63) -/
  | invalidEndByte (actual : Byte)
  deriving DecidableEq, Repr

/-- R15: the result of DECODE; exactly one variant holds for every input. -/
inductive DecodeResult where
  | ok (f : Frame)
  | err (e : FrameFormatError)
  deriving DecidableEq, Repr

/-- What a caller hands to a unit, before the lengths are checked: the block has no opcode, "an operation is selected
by which unit is used" (R49). The source's interface takes 16 channel values and 4 flags for ENC and a byte buffer for
DEC (spec/10_state.md section 4). -/
inductive Request where
  /-- ENC is used, with these channel values (index 0 first) and flags -/
  | enc (channels : List Channel) (flags : Flags)
  /-- DEC is used, with this buffer (offset 0 first) -/
  | dec (buffer : List Byte)
  deriving DecidableEq, Repr

end Sys2Proof
end

