-- ==== Sys2Proof/Config.lean ====
section
/-! DEFINITION. The constants of the block (spec/00_scope.md rule R5). All are fixed; the block has no parameter, no mode
and no variant (R6), so there is no free value here. The counts 16, 11, 22, 25, 176 and 200 stand as literals in types. -/

namespace Sys2Proof.Config

/-- R5 `START`: the start marker at offset 0. -/
def startMarker : Byte := 0x0F

/-- R5 `END`: the end marker at offset 24. -/
def endMarker : Byte := 0x00

/-- R5 `CHMASK`: keeps the low 11 bits of a channel value. -/
def chMask : Nat := 0x07FF

/-- R5 `CHW`: the wire width of a channel value, bits. -/
def chWidth : Nat := 11

/-- R46 `CMASK`: the bits of the 200-bit frame that decide whether it is canonical. -/
def canonicalMask : BitVec 200 := 0xff0f00000000000000000000000000000000000000000000ff

/-- R45 `MATCH`: what those bits must be. -/
def markerMatch : BitVec 200 := 0x0f

end Sys2Proof.Config
end

