-- ==== Sys2Proof/Syntax.lean ====
section
/-! DEFINITION. The block's two operations (spec/30_encoding.md rule R49), one constructor per row of
spec/opcode_table.json, each with its operand. There is no third operation. -/

namespace Sys2Proof

/-- One evaluation the caller may ask for: the operation and its operand (R49, R107). Every value of every operand is a
legal input (R51, R60). -/
inductive Instr where
  /-- ENCODE: Frame to wire frame, by the unit ENC (R51) -/
  | encode (f : Frame)
  /-- DECODE: wire frame to Frame, or a format error, by the unit DEC (R60) -/
  | decode (b : Frame25)
  deriving DecidableEq, Repr

end Sys2Proof
end

