-- ==== Sys2Proof/WellFormed.lean ====
section
/-! DEFINITION. Which instructions have a word of their own in the opcode table. Every instruction is executable, the
ill-formed ones too: the check says only that the table's 11-bit fields can hold the operand (R41, R47), and nothing in
the machine asks it. -/

namespace Sys2Proof

/-- R5 `CHMAX`: the value fits the 11 bits a channel has on the wire. -/
def Channel.fits (c : Channel) : Bool := c.toNat ≤ 2047

/-- The operand of ENCODE fits the fields of its row when every channel value is at most 2047; a larger one is legal and
masked (R9, R52), but has no table word of its own. The operand of DECODE is the 200-bit word itself. -/
def Instr.wellFormed : Instr → Bool
  | .encode f => f.ch.toList.all Channel.fits
  | .decode _ => true

end Sys2Proof
end

