-- ==== Sys2Proof/Decode.lean ====
section
/-! DEFINITION. From what a caller hands over to an instruction, and from a 200-bit word of the opcode table to an
instruction; then the encoders. This is not the unit DEC, which is `Sys2Proof.Machine.decodeFrame`: the block decodes no
instruction (R17, R49). -/

namespace Sys2Proof

/-- Why a request is no input of the block, by name (spec/93_implementation_defined.md U4: `refuse`). -/
inductive Reject where
  /-- the buffer handed to DEC is not 25 bytes long (R14, R30) -/
  | frameLength (n : Nat)
  /-- the list handed to ENC does not hold exactly 16 channel values (R10) -/
  | channelCount (n : Nat)
  deriving DecidableEq, Repr

/-- The evaluation a request asks for. Total: a length the operand's type does not have is rejected by name. -/
def decodeRequest : Request → Except Reject Instr
  | .enc chs fl =>
      if h : chs.length = 16 then .ok (.encode ⟨Vector.mk chs.toArray (by simpa using h), fl⟩)
      else .error (.channelCount chs.length)
  | .dec bs =>
      if h : bs.length = 25 then .ok (.decode (Vector.mk bs.toArray (by simpa using h)))
      else .error (.frameLength bs.length)

/-- The bytes of a frame in the vector view, offset 0 first: `B[j] = F[8*j+7 : 8*j]` (spec/00_scope.md section 5.2). -/
def bytesOfVector (F : BitVec 200) : List Byte :=
  (List.range 25).map fun j => F.extractLsb' (8 * j) 8

/-- The first `n` bytes of a number, lowest first. -/
def bytesOfNat : Nat → Nat → List Byte
  | 0, _ => []
  | n + 1, w => BitVec.ofNat 8 w :: bytesOfNat n (w / 256)

/-- The number whose bytes, lowest first, are the list. -/
def natOfBytes : List Byte → Nat
  | [] => 0
  | b :: bs => b.toNat + 256 * natOfBytes bs

/-- R46: the word matches the table's ENCODE row (`match` and `mask`): right markers and reserved bits 0. -/
def matchesEncodeRow (F : BitVec 200) : Bool := F &&& Config.canonicalMask == Config.markerMatch

/-- R41: the field of channel `i` in a 200-bit word, `F[8+11*i+10 : 8+11*i]`, zero extended. -/
def channelField (F : BitVec 200) (i : Nat) : Channel := (F.extractLsb' (8 + 11 * i) 11).setWidth 16

/-- R43: the flag fields of a 200-bit word. -/
def flagFields (F : BitVec 200) : Flags :=
  { ch17 := F.getLsbD 191, ch18 := F.getLsbD 190, framelost := F.getLsbD 189, failsafe := F.getLsbD 188 }

/-- The request a table word of `nbits` bits stands for; the bits from `nbits` up to 200 are 0. The rows overlap (the
ENCODE row's pattern is the set of ENCODE's results, R46, and every word is an operand of DECODE, R60), and no bit selects
the operation (R49), so the rows are tried in the table's order: DESIGN CHOICE, log entry 4. -/
def tableRequest (nbits w : Nat) : Request :=
  if nbits ≤ 200 then
    let F := BitVec.ofNat 200 (w % 2 ^ nbits)
    if matchesEncodeRow F then .enc ((List.range 16).map (channelField F)) (flagFields F)
    else .dec (bytesOfVector F)
  else .dec (bytesOfNat ((nbits + 7) / 8) w)

/-- The instruction the decoder reads from a table word; `none` where the request is rejected. -/
def decodeTableWord (nbits w : Nat) : Option Instr := (decodeRequest (tableRequest nbits w)).toOption

/-! The encoders, from the same tables. -/

/-- The request that asks for an evaluation. -/
def encodeRequest : Instr → Request
  | .encode f => .enc f.ch.toList f.flags
  | .decode b => .dec b.toList

/-- R47: the ENCODE row's word for an operand that fits its fields: marker, channel fields, flag bits. -/
def encodeRowWord (f : Frame) : Nat :=
  0x0F + ((List.range 16).map fun i => (f.ch.toList.getD i 0).toNat * 2 ^ (8 + 11 * i)).sum
    + f.flags.failsafe.toNat * 2 ^ 188 + f.flags.framelost.toNat * 2 ^ 189
    + f.flags.ch18.toNat * 2 ^ 190 + f.flags.ch17.toNat * 2 ^ 191

/-- The 200-bit table word of a well-formed instruction, as a number: the row's pattern for ENCODE, the frame itself for
DECODE. -/
def encodeTableWord : Instr → Nat
  | .encode f => encodeRowWord f
  | .decode b => natOfBytes b.toList

end Sys2Proof
end

