-- ==== Sys2Proof/Machine/State.lean ====
section
/-! DEFINITION. The state: the value on every port of ENC and DEC (spec/10_state.md rules R19 and R20) and the caller's
list of evaluations still to make. The block itself stores nothing (R8); what it drives is a function of what it is given,
which is the invariant `Sys2Proof.Coherent` of Safety.lean. -/

namespace Sys2Proof.Machine

/-- The ports of both units as the last evaluations left them, and what the caller has still to ask for. DEC's output
ports are the image of `decResult` (R70): see `State.decStatus` and its neighbours in Machine/Ports.lean. -/
structure State where
  /-- ENC's input ports `enc_ch[0..15]`, `enc_ch17`, `enc_ch18`, `enc_framelost`, `enc_failsafe` (R19) -/
  encIn : Frame
  /-- ENC's output port `enc_frame` (R19), as bytes: byte `j` is `enc_frame[8j+7:8j]` -/
  encOut : Frame25
  /-- DEC's input port `dec_frame` (R20), as bytes -/
  decIn : Frame25
  /-- what DECODE of `dec_frame` returned (R15, R60); DEC's output ports show it (R20, R70) -/
  decResult : DecodeResult
  /-- the caller's evaluations not yet made, the next one first: the model's own field (R104, log entry 1) -/
  pending : List Request
  deriving DecidableEq, Repr

/-- DEC's output ports (R20). -/
structure DecPorts where
  status : BitVec 2
  errByte : Byte
  ch : Channels
  ch17 : Bool
  ch18 : Bool
  framelost : Bool
  failsafe : Bool
  deriving DecidableEq, Repr

/-- Nothing stops the block: both operations are total and a format error is a returned value (R37, R57, R60, R88), so
there is no fault and this type is empty. Safe: no claim can rest on a stop. -/
inductive Fault where
  deriving DecidableEq, Repr

/-- Why a step has no meaning. -/
inductive Refusal where
  /-- an arm of exec whose instruction has no meaning yet; no arm is so. Safe. -/
  | notModelled (mnemonic : String)
  /-- the step, when the buffer handed to DEC is not 25 bytes long: it is no input (R14, U4). Safe: the machine stops. -/
  | notAFrameBuffer (length : Nat)
  /-- the step, when ENC is not handed exactly 16 channel values: it is no input (R10). Safe: the machine stops. -/
  | notAChannelList (length : Nat)
  deriving DecidableEq, Repr

/-- The ports with every input 0, as R22 shows them, and nothing asked for. The spec has no reset (R22, R98); that the
inputs are 0 is DESIGN CHOICE, log entry 3 (unsafe). -/
def State.reset : State where
  encIn := { ch := #v[0, 0, 0, 0, 0, 0, 0, 0, 0, 0, 0, 0, 0, 0, 0, 0],
             flags := { ch17 := false, ch18 := false, framelost := false, failsafe := false } }
  encOut := #v[0x0F, 0, 0, 0, 0, 0, 0, 0, 0, 0, 0, 0, 0, 0, 0, 0, 0, 0, 0, 0, 0, 0, 0, 0, 0]
  decIn := #v[0, 0, 0, 0, 0, 0, 0, 0, 0, 0, 0, 0, 0, 0, 0, 0, 0, 0, 0, 0, 0, 0, 0, 0, 0]
  decResult := .err (.invalidStartByte 0x00)
  pending := []

end Sys2Proof.Machine
end

