-- ==== Sys2Proof/Machine/Ops.lean ====
section
/-! DEFINITION. The named operations: access to the frame buffer (spec/00_scope.md section 5.3), reporting a format error,
driving the ports of a unit, and the caller's list of requests. -/

namespace Sys2Proof.Machine

/-- The byte at an offset of the frame buffer. No rule names an offset above 24 (R23); there it answers 0 (log entry 7). -/
def byteAt (B : Frame25) (j : Nat) : Byte := B[j]?.getD 0

/-- Section 5.3 `MemRead(addr, n)`: the `n` bytes from `addr` as the integer `sum B[addr+k] * 2^(8*k)`. -/
def memRead (B : Frame25) (addr : Nat) : Nat → Nat
  | 0 => 0
  | n + 1 => memRead B addr n + (byteAt B (addr + n)).toNat * 2 ^ (8 * n)

/-- Section 5.3 `MemWrite(addr, n, v)`: the byte at `addr+k` becomes `v[8k+7:8k]`, for `k` below `n`. -/
def memWrite (B : Frame25) (addr n v : Nat) : Frame25 :=
  Vector.ofFn fun j =>
    if addr ≤ j.val ∧ j.val < addr + n then BitVec.ofNat 8 (v >>> (8 * (j.val - addr))) else B[j]

/-- The newly produced output buffer of ENCODE (R32) before it is written; every byte of it is (R31). -/
def newBuffer : Frame25 := Vector.replicate 25 0

/-- Section 5.2: the frame as one 200-bit vector, `F[8*j + b] = B[j][b]`. -/
def toVector (B : Frame25) : BitVec 200 := BitVec.ofNat 200 (memRead B 0 25)

/-- Section 5.3 `raise`: DECODE ends at once and its result is the error. It is a returned value, no trap: nothing is
saved, no control is transferred (R88, R89), and there is no return from it (R90). -/
def raise (e : FrameFormatError) : DecodeResult := .err e

/-- ENC's ports after an evaluation: the inputs the caller drives and the output they give (R19). -/
def State.presentEnc (s : State) (f : Frame) (out : Frame25) : State := { s with encIn := f, encOut := out }

/-- DEC's ports after an evaluation: the input the caller drives and the result it gives (R20). -/
def State.presentDec (s : State) (b : Frame25) (r : DecodeResult) : State := { s with decIn := b, decResult := r }

/-- The caller's list replaced. -/
def State.setPending (s : State) (rs : List Request) : State := { s with pending := rs }

/-- The caller's next request and the state without it; none when the caller asks for nothing. -/
def fetch (s : State) : Option (Request × State) :=
  match s.pending with
  | [] => none
  | r :: rs => some (r, s.setPending rs)

/-- The caller asks for one more evaluation, to be made before the others. -/
def State.request (s : State) (r : Request) : State := s.setPending (r :: s.pending)

/-- While the caller asks for nothing the ports keep their values (R19, R20, R103). -/
def idle (s : State) : State := s

/-- The refusal of a request that is no input of the block. -/
def refusalOf : Reject → Refusal
  | .frameLength n => .notAFrameBuffer n
  | .channelCount n => .notAChannelList n

end Sys2Proof.Machine
end

