-- ==== Sys2Proof/Machine/Flags.lean ====
section
/-! DEFINITION. The flag byte (spec/30_encoding.md rule R43), written by ENCODE and read by DECODE. The block has no
condition codes (R21): these four flags are data. -/

namespace Sys2Proof.Machine

/-- R51: `bit(true) = 1`, `bit(false) = 0`. -/
def bit (b : Bool) : Nat := if b then 1 else 0

/-- R55: bit 7 Ch17, bit 6 Ch18, bit 5 Framelost, bit 4 Failsafe; bits 3 to 0 are 0. -/
def flagByte (fl : Flags) : Nat :=
  (bit fl.ch17 <<< 7) ||| (bit fl.ch18 <<< 6) ||| (bit fl.framelost <<< 5) ||| (bit fl.failsafe <<< 4)

/-- R66: the flags of a flag byte; bits 3 to 0 are not read (R68). -/
def flagsOf (fb : Nat) : Flags :=
  { ch17 := fb.testBit 7, ch18 := fb.testBit 6, framelost := fb.testBit 5, failsafe := fb.testBit 4 }

end Sys2Proof.Machine
end

