-- ==== Sys2Proof/Machine/Operands.lean ====
section
/-! DEFINITION. The channel operands on the wire: masking (R52), packing into the stream S (R51, R53) and extraction from
it (R60, R64). Integers are unbounded and shifts lose no bits, as spec/00_scope.md section 5.1 has them. -/

namespace Sys2Proof.Machine

/-- R52: `m[i] = f.ch[i] & 0x07FF`; bits 11 to 15 are dropped (spec/90_conflicts.md C2), nothing saturates. -/
def maskChannel (c : Channel) : Nat := c.toNat &&& Config.chMask

/-- R51: the 176-bit stream, `S = S | (m[i] << (11*i))` for `i` in 0..15. -/
def packChannels (ch : Channels) : Nat :=
  (List.finRange 16).foldl (fun S i => S ||| (maskChannel ch[i] <<< (Config.chWidth * i.val))) 0

/-- R60, R64: `zext_16((S >> (11*i)) & 0x07FF)`. -/
def unpackChannel (S i : Nat) : Channel := BitVec.ofNat 16 ((S >>> (Config.chWidth * i)) &&& Config.chMask)

/-- R60: the sixteen channel values of a stream. -/
def unpackChannels (S : Nat) : Channels := Vector.ofFn fun i => unpackChannel S i.val

end Sys2Proof.Machine
end

