-- ==== Sys2Proof/Machine/Decoder.lean ====
section
/-! DEFINITION. The unit DEC: the function of DECODE (spec/41_decode.md rule R60) and the meaning of the instruction. -/

namespace Sys2Proof.Machine

/-- R60, R64, R66: the Frame extracted from bytes 1 to 23, once both markers are right; it cannot fail (R71). -/
def extractFrame (B : Frame25) : Frame :=
  { ch := unpackChannels (memRead B 1 22), flags := flagsOf (memRead B 23 1) }

/-- R60 `DECODE(B)`: the start marker, then the end marker, then extraction; the first failing check wins (R61). -/
def decodeFrame (B : Frame25) : DecodeResult :=
  let b0 := memRead B 0 1
  if b0 ≠ Config.startMarker.toNat then raise (.invalidStartByte (BitVec.ofNat 8 b0))
  else
    let b24 := memRead B 24 1
    if b24 ≠ Config.endMarker.toNat then raise (.invalidEndByte (BitVec.ofNat 8 b24))
    else .ok (extractFrame B)

/-- One evaluation of DECODE: the caller drives `dec_frame` with `b` and DEC shows the result, a Frame or a format error
(R20, R104): both are a completed evaluation (R88). ENC is not touched (R2). -/
def execDecode (b : Frame25) (s : State) : Host.Outcome State Fault Refusal :=
  .next (s.presentDec b (decodeFrame b))

end Sys2Proof.Machine
end

