-- ==== Sys2Proof/Machine/Encoder.lean ====
section
/-! DEFINITION. The unit ENC: the function of ENCODE (spec/40_encode.md rule R51) and the meaning of the instruction. -/

namespace Sys2Proof.Machine

/-- R51 `ENCODE(f)`: total, never fails (R57). -/
def encodeFrame (f : Frame) : Frame25 :=
  let B := memWrite newBuffer 0 1 Config.startMarker.toNat
  let B := memWrite B 1 22 (packChannels f.ch)
  let B := memWrite B 23 1 (flagByte f.flags)
  memWrite B 24 1 Config.endMarker.toNat

/-- One evaluation of ENCODE: the caller drives ENC's inputs with `f` and `enc_frame` shows the result (R19, R104). DEC is
not touched (R2). -/
def execEncode (f : Frame) (s : State) : Host.Outcome State Fault Refusal :=
  .next (s.presentEnc f (encodeFrame f))

end Sys2Proof.Machine
end

