-- ==== Sys2Proof/Machine/Dispatch.lean ====
section
/-! DEFINITION. One arm per operation of the block (spec/30_encoding.md rule R49). -/

namespace Sys2Proof.Machine

/-- One evaluation (R104). -/
def exec (i : Instr) (s : State) : Host.Outcome State Fault Refusal :=
  match i with
  | .encode f => Sys2Proof.Machine.execEncode f s
  | .decode b => Sys2Proof.Machine.execDecode b s

end Sys2Proof.Machine
end

