-- ==== Sys2Proof/Machine/Step.lean ====
section
/-! DEFINITION. One step: the caller's next evaluation (R104), and how a table word is made that evaluation. -/

namespace Sys2Proof.Machine

/-- One evaluation: the caller's next request is taken off its list, read as an instruction and executed. A request that
is no input of the block is refused; with nothing asked for, the ports keep their values (log entries 1, 2 and 6). -/
def step (s : State) : Host.Outcome State Fault Refusal :=
  match fetch s with
  | none => .next (idle s)
  | some (r, s') =>
    match Sys2Proof.decodeRequest r with
    | .ok i => exec i s'
    | .error e => .refused (refusalOf e)

/-- The state in which the caller's next request is the one a table word stands for (log entries 4 and 11). -/
def State.withFetchWord (s : State) (nbits w : Nat) : State := s.request (Sys2Proof.tableRequest nbits w)

end Sys2Proof.Machine
end

