-- ==== Sys2Proof/Machine/Ports.lean ====
section
/-! DEFINITION. What the ports show: `enc_frame` and `dec_frame` as 200-bit vectors (R19, R20) and DEC's outputs as the
image of the result (R70). The codes and the zeros on an error are the spec's decisions D5 and D6 (log entry 8). -/

namespace Sys2Proof.Machine

/-- No channel value: sixteen times 0x0000, what DEC drives on an error (R20, D6). -/
def zeroChannels : Channels := Vector.replicate 16 0

/-- R20, R70 for an error: the status code of the variant, its byte, every frame output 0. -/
def errorPorts (status : BitVec 2) (actual : Byte) : DecPorts :=
  { status := status, errByte := actual, ch := zeroChannels,
    ch17 := false, ch18 := false, framelost := false, failsafe := false }

/-- R70: DEC's output ports as the image of the result; status 0 is Ok, 1 InvalidStartByte, 2 InvalidEndByte (R85). -/
def portImage : DecodeResult → DecPorts
  | .ok f =>
      { status := 0, errByte := 0x00, ch := f.ch, ch17 := f.flags.ch17, ch18 := f.flags.ch18,
        framelost := f.flags.framelost, failsafe := f.flags.failsafe }
  | .err (.invalidStartByte a) => errorPorts 1 a
  | .err (.invalidEndByte a) => errorPorts 2 a

/-- The port `enc_frame`, 200 bits (R19). -/
def State.encFrame (s : State) : BitVec 200 := toVector s.encOut

/-- The port `dec_frame`, 200 bits (R20). -/
def State.decFrame (s : State) : BitVec 200 := toVector s.decIn

/-- DEC's output ports (R20). -/
def State.decPorts (s : State) : DecPorts := portImage s.decResult

/-- The port `dec_status` (R20). -/
def State.decStatus (s : State) : BitVec 2 := s.decPorts.status

/-- The port `dec_err_byte` (R20). -/
def State.decErrByte (s : State) : Byte := s.decPorts.errByte

/-- The port `dec_ch[i]` (R20). -/
def State.decCh (s : State) (i : Fin 16) : Channel := s.decPorts.ch[i]

/-- The port `dec_ch17` (R20). -/
def State.decCh17 (s : State) : Bool := s.decPorts.ch17

/-- The port `dec_ch18` (R20). -/
def State.decCh18 (s : State) : Bool := s.decPorts.ch18

/-- The port `dec_framelost` (R20). -/
def State.decFramelost (s : State) : Bool := s.decPorts.framelost

/-- The port `dec_failsafe` (R20). -/
def State.decFailsafe (s : State) : Bool := s.decPorts.failsafe

end Sys2Proof.Machine
end

