-- ==== Sys2Proof/Safety.lean ====
section
/-! DEFINITION. The words the claims use: masked and in-range Frames (spec/42_codec_laws.md), valid and canonical wire
frames (R45, R46), and what holds of the ports in every state the machine can be in. -/

namespace Sys2Proof

/-- 42_codec_laws.md: every `ch[i]` replaced by `ch[i] & 0x07FF`, the flags unchanged. -/
def Frame.mask (f : Frame) : Frame := { f with ch := f.ch.map fun c => c &&& 0x07FF }

/-- R9, R72: every channel value lies in [0, 2047]. -/
def Frame.InRange (f : Frame) : Prop := ∀ i : Fin 16, f.ch[i].toNat ≤ 2047

/-- R45: both markers are right. -/
def Frame25.Valid (B : Frame25) : Prop := B[0] = 0x0F ∧ B[24] = 0x00

/-- R46: valid, and the reserved bits of the flag byte are 0. -/
def Frame25.Canonical (B : Frame25) : Prop := Frame25.Valid B ∧ B[23] &&& 0x0F = 0

/-- 42_codec_laws.md: `B[23]` replaced by `B[23] & 0xF0`, every other byte unchanged. -/
def Frame25.canon (B : Frame25) : Frame25 := B.set 23 (B[23] &&& 0xF0)

/-- 00_scope.md section 5.2: bit `n` of the vector view, `F[8*j + b] = B[j][b]`. -/
def Frame25.bit (B : Frame25) (n : Nat) : Bool := (Machine.byteAt B (n / 8)).getLsbD (n % 8)

/-- R15, R67: what a result of DECODE can be: an Ok Frame is in range, and the reported byte is not the marker. -/
def DecodeResult.Legal : DecodeResult → Prop
  | .ok f => f.InRange
  | .err (.invalidStartByte a) => a ≠ 0x0F
  | .err (.invalidEndByte a) => a ≠ 0x00

/-- R19, R20: each unit's output is its function of its input, whatever was evaluated before. -/
def Coherent (s : Machine.State) : Prop :=
  s.encOut = Machine.encodeFrame s.encIn ∧ s.decResult = Machine.decodeFrame s.decIn

/-- R107: the caller only ever gets canonical frames from ENC and legal results from DEC. -/
def OutputsLegal (s : Machine.State) : Prop := Frame25.Canonical s.encOut ∧ s.decResult.Legal

end Sys2Proof
end

