-- ==== Sys2Proof/Certificates/Slice0/Obligations.lean ====
section
/-! DEFINITION. The statements about the codec. A statement about an instruction gives the next state in full, so that it
says where the instruction completes, what it writes and that everything else is unchanged. -/

open Sys2Proof Sys2Proof.Machine

/-! ## ENCODE (spec/40_encode.md) -/

/-- R51: ENCODE completes on every Frame from every state; the result is the number `0x0F | (S << 8) | (flagbyte << 184)`,
byte `1+k` is `S[8k+7:8k]`, and only ENC's ports change. -/
def Obligations.EncodeResultAsOneNumber : Prop :=
  ∀ (f : Frame) (s : State), ∃ out : Frame25,
    exec (.encode f) s = .next { s with encIn := f, encOut := out } ∧
    let S := (List.finRange 16).foldl (fun S i => S ||| ((f.ch[i].toNat &&& 0x07FF) <<< (11 * i.val))) 0
    let flagbyte := (f.flags.ch17.toNat <<< 7) ||| (f.flags.ch18.toNat <<< 6) |||
      (f.flags.framelost.toNat <<< 5) ||| (f.flags.failsafe.toNat <<< 4)
    (toVector out).toNat = 0x0F ||| (S <<< 8) ||| (flagbyte <<< 184) ∧
    out[0] = 0x0F ∧ (∀ k, k < 22 → (byteAt out (1 + k)).toNat = (S >>> (8 * k)) % 256) ∧
    out[23].toNat = flagbyte ∧ out[24] = 0x00

/-- R52: the field of channel `i` is `ch[i] & 0x07FF = ch[i] mod 2048`, and bits 15 to 11 have no influence on any bit. -/
def Obligations.EncodeMasksChannelsToElevenBits : Prop :=
  ∀ (f : Frame) (s : State), ∃ out : Frame25,
    exec (.encode f) s = .next { s with encIn := f, encOut := out } ∧
    (∀ i : Fin 16, ((toVector out).extractLsb' (8 + 11 * i.val) 11).toNat = f.ch[i].toNat % 2048 ∧
      f.ch[i].toNat &&& 0x07FF = f.ch[i].toNat % 2048) ∧
    ∀ g : Frame, g.flags = f.flags → (∀ i : Fin 16, g.ch[i].toNat % 2048 = f.ch[i].toNat % 2048) →
      exec (.encode g) s = .next { s with encIn := g, encOut := out }

/-- R53: bit `t` of the masked channel `i` is the payload bit at stream position `11*i+t`; the fields are disjoint and cover
the payload, so that OR and sum agree. -/
def Obligations.EncodePacksChannelBits : Prop :=
  (∀ (f : Frame) (s : State), ∃ out : Frame25,
    exec (.encode f) s = .next { s with encIn := f, encOut := out } ∧
    (∀ (i : Fin 16) (t : Fin 11),
      (byteAt out (1 + (11 * i.val + t.val) / 8)).getLsbD ((11 * i.val + t.val) % 8) = (f.ch[i] &&& 0x07FF).getLsbD t.val) ∧
    (List.finRange 16).foldl (fun S i => S ||| ((f.ch[i].toNat &&& 0x07FF) <<< (11 * i.val))) 0 =
      ∑ i : Fin 16, (f.ch[i].toNat &&& 0x07FF) * 2 ^ (11 * i.val)) ∧
  ∀ n, n < 176 → ∃! p : Fin 16 × Fin 11, 11 * p.1.val + p.2.val = n

/-- The per-byte equations of spec/40_encode.md section 2, which the spec derives from its packing rule. -/
def Obligations.EncodePerByteEquations : Prop :=
  ∀ (f : Frame) (s : State), ∃ out : Frame25,
    exec (.encode f) s = .next { s with encIn := f, encOut := out } ∧
    let m := fun i : Fin 16 => f.ch[i].toNat &&& 0x07FF
    out.toList.map BitVec.toNat =
      [0x0F,
       m 0 &&& 0xFF,
       ((m 0 >>> 8) ||| (m 1 <<< 3)) &&& 0xFF,
       ((m 1 >>> 5) ||| (m 2 <<< 6)) &&& 0xFF,
       (m 2 >>> 2) &&& 0xFF,
       ((m 2 >>> 10) ||| (m 3 <<< 1)) &&& 0xFF,
       ((m 3 >>> 7) ||| (m 4 <<< 4)) &&& 0xFF,
       ((m 4 >>> 4) ||| (m 5 <<< 7)) &&& 0xFF,
       (m 5 >>> 1) &&& 0xFF,
       ((m 5 >>> 9) ||| (m 6 <<< 2)) &&& 0xFF,
       ((m 6 >>> 6) ||| (m 7 <<< 5)) &&& 0xFF,
       (m 7 >>> 3) &&& 0xFF,
       m 8 &&& 0xFF,
       ((m 8 >>> 8) ||| (m 9 <<< 3)) &&& 0xFF,
       ((m 9 >>> 5) ||| (m 10 <<< 6)) &&& 0xFF,
       (m 10 >>> 2) &&& 0xFF,
       ((m 10 >>> 10) ||| (m 11 <<< 1)) &&& 0xFF,
       ((m 11 >>> 7) ||| (m 12 <<< 4)) &&& 0xFF,
       ((m 12 >>> 4) ||| (m 13 <<< 7)) &&& 0xFF,
       (m 13 >>> 1) &&& 0xFF,
       ((m 13 >>> 9) ||| (m 14 <<< 2)) &&& 0xFF,
       ((m 14 >>> 6) ||| (m 15 <<< 5)) &&& 0xFF,
       (m 15 >>> 3) &&& 0xFF,
       (f.flags.ch17.toNat <<< 7) ||| (f.flags.ch18.toNat <<< 6) ||| (f.flags.framelost.toNat <<< 5) |||
         (f.flags.failsafe.toNat <<< 4),
       0x00]

/-- R55: the flag byte's bits, its sixteen values, and the source's two literal cases. -/
def Obligations.EncodeFlagByteBits : Prop :=
  ∀ (f : Frame) (s : State), ∃ out : Frame25,
    exec (.encode f) s = .next { s with encIn := f, encOut := out } ∧
    out[23].getLsbD 7 = f.flags.ch17 ∧ out[23].getLsbD 6 = f.flags.ch18 ∧
    out[23].getLsbD 5 = f.flags.framelost ∧ out[23].getLsbD 4 = f.flags.failsafe ∧
    (∀ k, k < 4 → out[23].getLsbD k = false) ∧ (∃ n, n < 16 ∧ out[23].toNat = 16 * n) ∧
    (f.flags = ⟨false, false, false, true⟩ → out[23] = 0x10) ∧ (f.flags = ⟨true, false, false, false⟩ → out[23] = 0x80)

/-- R56: the markers are the same for every operand. -/
def Obligations.EncodeMarkersAreConstant : Prop :=
  ∀ (f : Frame) (s : State), ∃ out : Frame25,
    exec (.encode f) s = .next { s with encIn := f, encOut := out } ∧ out[0] = 0x0F ∧ out[24] = 0x00

/-- The wiring of ENC's ports (spec/40_encode.md section 2, "At the ports"): every bit of `enc_frame` is a constant or a
copy of one input bit. -/
def Obligations.EncodePortsAreWiring : Prop :=
  ∀ (f : Frame) (s : State), ∃ t : State,
    exec (.encode f) s = .next t ∧ t.encIn = f ∧
    t.encFrame.extractLsb' 0 8 = 0x0F ∧
    (∀ i : Fin 16, t.encFrame.extractLsb' (8 + 11 * i.val) 11 = f.ch[i].setWidth 11) ∧
    t.encFrame.extractLsb' 184 4 = 0 ∧
    t.encFrame.getLsbD 188 = f.flags.failsafe ∧ t.encFrame.getLsbD 189 = f.flags.framelost ∧
    t.encFrame.getLsbD 190 = f.flags.ch18 ∧ t.encFrame.getLsbD 191 = f.flags.ch17 ∧
    t.encFrame.extractLsb' 192 8 = 0x00 ∧
    t.decIn = s.decIn ∧ t.decResult = s.decResult ∧ t.pending = s.pending

/-- Purity of ENCODE (spec/40_encode.md section 2): from any two states the same operand gives the same result, the operand
is unchanged, and a second evaluation changes nothing. -/
def Obligations.EncodeIsPure : Prop :=
  ∀ (f : Frame) (s s' : State), ∃ out : Frame25,
    exec (.encode f) s = .next { s with encIn := f, encOut := out } ∧
    exec (.encode f) s' = .next { s' with encIn := f, encOut := out } ∧
    exec (.encode f) { s with encIn := f, encOut := out } = .next { s with encIn := f, encOut := out }

/-! ## DECODE (spec/41_decode.md) -/

/-- R60: DECODE completes on every frame from every state; an error of the first failing check, or the Frame that the stream
`S` and the flag byte give; only DEC's ports change. -/
def Obligations.DecodeResultFromStream : Prop :=
  ∀ (b : Frame25) (s : State), ∃ r : DecodeResult,
    exec (.decode b) s = .next { s with decIn := b, decResult := r } ∧
    let S := ∑ k : Fin 22, (byteAt b (1 + k.val)).toNat * 2 ^ (8 * k.val)
    (b[0] ≠ 0x0F → r = .err (.invalidStartByte b[0])) ∧
    (b[0] = 0x0F → b[24] ≠ 0x00 → r = .err (.invalidEndByte b[24])) ∧
    (b[0] = 0x0F → b[24] = 0x00 → ∃ f : Frame, r = .ok f ∧
      (∀ i : Fin 16, f.ch[i].toNat = (S >>> (11 * i.val)) &&& 0x07FF) ∧
      f.flags = ⟨b[23].getLsbD 7, b[23].getLsbD 6, b[23].getLsbD 5, b[23].getLsbD 4⟩)

/-- R62: a wrong start marker, in any of its 8 bits, is reported with the byte itself. -/
def Obligations.DecodeReportsWrongStartByte : Prop :=
  ∀ (b : Frame25) (s : State), b[0] ≠ 0x0F →
    exec (.decode b) s = .next { s with decIn := b, decResult := .err (.invalidStartByte b[0]) }

/-- R63: a wrong end marker is reported with the byte itself, when the start marker is right. -/
def Obligations.DecodeReportsWrongEndByte : Prop :=
  ∀ (b : Frame25) (s : State), b[0] = 0x0F → b[24] ≠ 0x00 →
    exec (.decode b) s = .next { s with decIn := b, decResult := .err (.invalidEndByte b[24]) }

/-- R76: the three cases of marker validation, for every frame; they exclude each other and leave none out. -/
def Obligations.DecodeMarkerCasesAreExhaustive : Prop :=
  ∀ (b : Frame25) (s : State), ∃ r : DecodeResult,
    exec (.decode b) s = .next { s with decIn := b, decResult := r } ∧
    (r = .err (.invalidStartByte b[0]) ↔ b[0] ≠ 0x0F) ∧
    (r = .err (.invalidEndByte b[24]) ↔ b[0] = 0x0F ∧ b[24] ≠ 0x00) ∧
    ((∃ f, r = .ok f) ↔ Frame25.Valid b)

/-- R84: the two errors are DECODE's only exceptional outcomes, each exactly under its condition and with its byte; ENCODE
raises nothing. -/
def Obligations.FormatErrorsAreExactlyTwo : Prop :=
  (∀ (b : Frame25) (s : State), ∃ r : DecodeResult,
    exec (.decode b) s = .next { s with decIn := b, decResult := r } ∧
    ∀ e : FrameFormatError, r = .err e ↔
      (b[0] ≠ 0x0F ∧ e = .invalidStartByte b[0]) ∨ (b[0] = 0x0F ∧ b[24] ≠ 0x00 ∧ e = .invalidEndByte b[24])) ∧
  ∀ (f : Frame) (s : State), ∃ out : Frame25, exec (.encode f) s = .next { s with encIn := f, encOut := out }

/-- R87: with both markers wrong only the start byte is reported, and the end byte is not looked at. -/
def Obligations.StartErrorHasPriority : Prop :=
  ∀ (b b' : Frame25) (s : State), b[0] ≠ 0x0F → b[24] ≠ 0x00 → b'[0] = b[0] →
    exec (.decode b) s = .next { s with decIn := b, decResult := .err (.invalidStartByte b[0]) } ∧
    exec (.decode b') s = .next { s with decIn := b', decResult := .err (.invalidStartByte b[0]) }

/-- R64: bit `t` of channel `i` is the payload bit at stream position `11*i+t`; bits 15 to 11 are 0; in the vector view the
channel is the zero extended slice. -/
def Obligations.DecodeExtractsChannelBits : Prop :=
  ∀ (b : Frame25) (s : State), Frame25.Valid b → ∃ f : Frame,
    exec (.decode b) s = .next { s with decIn := b, decResult := .ok f } ∧
    ∀ i : Fin 16,
      (∀ t : Fin 11,
        f.ch[i].getLsbD t.val = (byteAt b (1 + (11 * i.val + t.val) / 8)).getLsbD ((11 * i.val + t.val) % 8)) ∧
      f.ch[i].extractLsb' 11 5 = 0 ∧
      f.ch[i] = ((toVector b).extractLsb' (8 + 11 * i.val) 11).setWidth 16

/-- The per-channel equations of spec/41_decode.md section 3, which the spec derives from its extraction rule. -/
def Obligations.DecodePerChannelEquations : Prop :=
  ∀ (b : Frame25) (s : State), Frame25.Valid b → ∃ f : Frame,
    exec (.decode b) s = .next { s with decIn := b, decResult := .ok f } ∧
    let B := fun j : Nat => (byteAt b j).toNat
    f.ch.toList.map BitVec.toNat =
      [(B 1 ||| (B 2 <<< 8)) &&& 0x7FF,
       ((B 2 >>> 3) ||| (B 3 <<< 5)) &&& 0x7FF,
       ((B 3 >>> 6) ||| (B 4 <<< 2) ||| (B 5 <<< 10)) &&& 0x7FF,
       ((B 5 >>> 1) ||| (B 6 <<< 7)) &&& 0x7FF,
       ((B 6 >>> 4) ||| (B 7 <<< 4)) &&& 0x7FF,
       ((B 7 >>> 7) ||| (B 8 <<< 1) ||| (B 9 <<< 9)) &&& 0x7FF,
       ((B 9 >>> 2) ||| (B 10 <<< 6)) &&& 0x7FF,
       ((B 10 >>> 5) ||| (B 11 <<< 3)) &&& 0x7FF,
       (B 12 ||| (B 13 <<< 8)) &&& 0x7FF,
       ((B 13 >>> 3) ||| (B 14 <<< 5)) &&& 0x7FF,
       ((B 14 >>> 6) ||| (B 15 <<< 2) ||| (B 16 <<< 10)) &&& 0x7FF,
       ((B 16 >>> 1) ||| (B 17 <<< 7)) &&& 0x7FF,
       ((B 17 >>> 4) ||| (B 18 <<< 4)) &&& 0x7FF,
       ((B 18 >>> 7) ||| (B 19 <<< 1) ||| (B 20 <<< 9)) &&& 0x7FF,
       ((B 20 >>> 2) ||| (B 21 <<< 6)) &&& 0x7FF,
       ((B 21 >>> 5) ||| (B 22 <<< 3)) &&& 0x7FF]

/-- The flags of a valid frame (spec/41_decode.md section 3, "Flags"): bits 7 to 4 of byte 23. The mask forms, and that the
flags do not alter the channels, are what the spec itself marks as derived. -/
def Obligations.DecodeReadsFlags : Prop :=
  ∀ (b : Frame25) (s : State), Frame25.Valid b → ∃ f : Frame,
    exec (.decode b) s = .next { s with decIn := b, decResult := .ok f } ∧
    (f.flags.ch17 = b[23].getLsbD 7 ∧ f.flags.ch18 = b[23].getLsbD 6 ∧
      f.flags.framelost = b[23].getLsbD 5 ∧ f.flags.failsafe = b[23].getLsbD 4) ∧
    (f.flags.ch17 = decide (b[23] &&& 0x80 ≠ 0) ∧ f.flags.ch18 = decide (b[23] &&& 0x40 ≠ 0) ∧
      f.flags.framelost = decide (b[23] &&& 0x20 ≠ 0) ∧ f.flags.failsafe = decide (b[23] &&& 0x10 ≠ 0)) ∧
    ∀ v : Byte, ∃ g : Frame,
      exec (.decode (b.set 23 v)) s = .next { s with decIn := b.set 23 v, decResult := .ok g } ∧ g.ch = f.ch

/-- R67: in every Ok result every channel value lies in [0, 2047], its bits 15 to 11 being 0. -/
def Obligations.DecodedChannelsAreInRange : Prop :=
  ∀ (b : Frame25) (s : State), ∃ r : DecodeResult,
    exec (.decode b) s = .next { s with decIn := b, decResult := r } ∧
    ∀ f : Frame, r = .ok f → ∀ i : Fin 16, f.ch[i].toNat ≤ 2047 ∧ ∀ t, 11 ≤ t → f.ch[i].getLsbD t = false

/-- R68: the reserved bits of the flag byte, at any value `v`, change nothing in the result, Ok or Err. -/
def Obligations.DecodeIgnoresReservedBits : Prop :=
  ∀ (b : Frame25) (v : Byte) (s : State), ∃ r : DecodeResult,
    exec (.decode b) s = .next { s with decIn := b, decResult := r } ∧
    exec (.decode (b.set 23 ((b[23] &&& 0xF0) ||| (v &&& 0x0F)))) s =
      .next { s with decIn := b.set 23 ((b[23] &&& 0xF0) ||| (v &&& 0x0F)), decResult := r }

/-- R69: from any two states the same buffer gives the same result, the buffer is unchanged, and a second decoding of it
changes nothing. -/
def Obligations.DecodeIsPure : Prop :=
  ∀ (b : Frame25) (s s' : State), ∃ r : DecodeResult,
    exec (.decode b) s = .next { s with decIn := b, decResult := r } ∧
    exec (.decode b) s' = .next { s' with decIn := b, decResult := r } ∧
    exec (.decode b) { s with decIn := b, decResult := r } = .next { s with decIn := b, decResult := r }

/-- DEC's output ports as functions of `dec_frame` (spec/41_decode.md section 4, "At the ports"). The codes and the zeros
rest on the spec's decisions D5 and D6 (log entry 8). -/
def Obligations.DecodePortImage : Prop :=
  ∀ (b : Frame25) (s : State), ∃ t : State,
    exec (.decode b) s = .next t ∧ t.decIn = b ∧
    t.encIn = s.encIn ∧ t.encOut = s.encOut ∧ t.pending = s.pending ∧
    let F := t.decFrame
    let start_ok := F.extractLsb' 0 8 = 0x0F
    let end_ok := F.extractLsb' 192 8 = 0x00
    (start_ok → end_ok →
      t.decStatus = 0 ∧ t.decErrByte = 0x00 ∧
      (∀ i : Fin 16, t.decCh i = (F.extractLsb' (8 + 11 * i.val) 11).setWidth 16) ∧
      t.decCh17 = F.getLsbD 191 ∧ t.decCh18 = F.getLsbD 190 ∧
      t.decFramelost = F.getLsbD 189 ∧ t.decFailsafe = F.getLsbD 188) ∧
    (¬ start_ok → t.decStatus = 1 ∧ t.decErrByte = F.extractLsb' 0 8) ∧
    (start_ok → ¬ end_ok → t.decStatus = 2 ∧ t.decErrByte = F.extractLsb' 192 8) ∧
    (¬ (start_ok ∧ end_ok) →
      (∀ i : Fin 16, t.decCh i = 0x0000) ∧
      t.decCh17 = false ∧ t.decCh18 = false ∧ t.decFramelost = false ∧ t.decFailsafe = false)

/-- The port image loses nothing of the result, two results with equal ports being equal, and never drives status 3 (the
spec's decision D5, log entry 8). -/
def Obligations.PortImageIsFaithful : Prop :=
  (∀ r : DecodeResult, (portImage r).status ≠ 3) ∧ ∀ r r' : DecodeResult, portImage r = portImage r' → r = r'

/-- R71: nothing but the two markers decides whether decoding succeeds, and every choice of bytes 1 to 23 decodes. -/
def Obligations.RightMarkersAlwaysDecode : Prop :=
  ∀ (payload : Vector Byte 23) (s : State), ∃ f : Frame,
    let b : Frame25 := Vector.ofFn fun j => if h : 1 ≤ j.val ∧ j.val ≤ 23 then payload[j.val - 1] else if j.val = 0 then 0x0F else 0x00
    exec (.decode b) s = .next { s with decIn := b, decResult := .ok f }

/-- Error results ignore the rest of the frame (spec/42_codec_laws.md section 2): the result depends on byte 0 alone when it
is wrong, and on byte 24 besides when that is wrong. -/
def Obligations.ErrorResultsIgnorePayload : Prop :=
  ∀ (b b' : Frame25) (s : State), b[0] = b'[0] →
    b[0] ≠ 0x0F ∨ (b[24] ≠ 0x00 ∧ b[24] = b'[24]) → ∃ e : FrameFormatError,
      exec (.decode b) s = .next { s with decIn := b, decResult := .err e } ∧
      exec (.decode b') s = .next { s with decIn := b', decResult := .err e }

/-! ## The pair (spec/42_codec_laws.md) -/

/-- R72: for every Frame in range, encoding and then decoding ENC's output gives the Frame back. -/
def Obligations.RoundTripInRange : Prop :=
  ∀ (f : Frame) (s : State), f.InRange → ∃ out : Frame25,
    exec (.encode f) s = .next { s with encIn := f, encOut := out } ∧
    exec (.decode out) { s with encIn := f, encOut := out } =
      .next { s with encIn := f, encOut := out, decIn := out, decResult := .ok f }

/-- R73: for every Frame, encoding and then decoding gives the Frame with each channel masked to 11 bits. -/
def Obligations.RoundTripMasksChannels : Prop :=
  ∀ (f : Frame) (s : State), ∃ out : Frame25,
    exec (.encode f) s = .next { s with encIn := f, encOut := out } ∧
    exec (.decode out) { s with encIn := f, encOut := out } =
      .next { s with encIn := f, encOut := out, decIn := out, decResult := .ok f.mask }

/-- A Frame and its masked Frame encode alike; two Frames encode alike exactly when their masked Frames are equal
(spec/42_codec_laws.md section 1). -/
def Obligations.EqualWireFramesIffEqualMasks : Prop :=
  ∀ (f g : Frame) (s : State), ∃ out out' : Frame25,
    exec (.encode f) s = .next { s with encIn := f, encOut := out } ∧
    exec (.encode g) s = .next { s with encIn := g, encOut := out' } ∧
    exec (.encode f.mask) s = .next { s with encIn := f.mask, encOut := out } ∧
    (out = out' ↔ f.mask = g.mask)

/-- Decoding a valid frame and encoding the Frame reproduces it with the reserved bits cleared (spec/42_codec_laws.md
section 2), and reproduces it exactly when they were clear. -/
def Obligations.ReencodingGivesCanonicalFrame : Prop :=
  ∀ (b : Frame25) (s : State), Frame25.Valid b → ∃ f : Frame,
    exec (.decode b) s = .next { s with decIn := b, decResult := .ok f } ∧
    exec (.encode f) { s with decIn := b, decResult := .ok f } =
      .next { s with decIn := b, decResult := .ok f, encIn := f, encOut := Frame25.canon b } ∧
    (Frame25.canon b = b ↔ b[23] &&& 0x0F = 0)

/-- The wire frames ENCODE can produce are exactly the canonical ones (spec/42_codec_laws.md section 2). -/
def Obligations.ImageOfEncodeIsCanonical : Prop :=
  ∀ (b : Frame25) (s : State),
    (∃ f : Frame, exec (.encode f) s = .next { s with encIn := f, encOut := b }) ↔ Frame25.Canonical b

/-- On valid frames DECODE identifies exactly the frames that differ in reserved bits only, and it reaches every Frame in
range (spec/42_codec_laws.md section 2). -/
def Obligations.DecodeEqualIffCanonEqual : Prop :=
  (∀ (b b' : Frame25) (s : State), Frame25.Valid b → Frame25.Valid b' → ∃ f f' : Frame,
    exec (.decode b) s = .next { s with decIn := b, decResult := .ok f } ∧
    exec (.decode b') s = .next { s with decIn := b', decResult := .ok f' } ∧
    (f = f' ↔ Frame25.canon b = Frame25.canon b')) ∧
  ∀ (f : Frame) (s : State), f.InRange → ∃ b : Frame25, Frame25.Canonical b ∧
    exec (.decode b) s = .next { s with decIn := b, decResult := .ok f }

/-- Normalisation is idempotent (spec/42_codec_laws.md section 2): a masked Frame survives the round trip, and the re-encoded
frame decodes to the same Frame and re-encodes to itself. -/
def Obligations.NormalisationIsIdempotent : Prop :=
  (∀ (f : Frame) (s : State), ∃ out : Frame25,
    exec (.encode f.mask) s = .next { s with encIn := f.mask, encOut := out } ∧
    exec (.decode out) s = .next { s with decIn := out, decResult := .ok f.mask }) ∧
  ∀ (b : Frame25) (s : State), Frame25.Valid b → ∃ f : Frame,
    exec (.decode b) s = .next { s with decIn := b, decResult := .ok f } ∧
    exec (.decode (Frame25.canon b)) s = .next { s with decIn := Frame25.canon b, decResult := .ok f } ∧
    exec (.encode f) s = .next { s with encIn := f, encOut := Frame25.canon b }

/-- Lane locality of ENCODE (spec/42_codec_laws.md section 2): another value of channel `i` changes only bits `8+11*i` to
`8+11*i+10` of the frame, and other flags change only bits 188 to 191, each flag its own. -/
def Obligations.EncodeLanesAreIndependent : Prop :=
  (∀ (f : Frame) (i : Fin 16) (c : Channel) (s : State), ∃ out out' : Frame25,
    exec (.encode f) s = .next { s with encIn := f, encOut := out } ∧
    exec (.encode { f with ch := f.ch.set i.val c }) s =
      .next { s with encIn := { f with ch := f.ch.set i.val c }, encOut := out' } ∧
    ∀ n, n < 8 + 11 * i.val ∨ 8 + 11 * i.val + 10 < n → Frame25.bit out n = Frame25.bit out' n) ∧
  ∀ (f : Frame) (fl : Flags) (s : State), ∃ out out' : Frame25,
    exec (.encode f) s = .next { s with encIn := f, encOut := out } ∧
    exec (.encode { f with flags := fl }) s = .next { s with encIn := { f with flags := fl }, encOut := out' } ∧
    ∀ n, (n = 191 → fl.ch17 = f.flags.ch17) → (n = 190 → fl.ch18 = f.flags.ch18) →
      (n = 189 → fl.framelost = f.flags.framelost) → (n = 188 → fl.failsafe = f.flags.failsafe) →
      Frame25.bit out n = Frame25.bit out' n

/-- Lane locality of DECODE (spec/42_codec_laws.md section 2): channel `i` depends only on its own 11 bits. -/
def Obligations.DecodeLanesAreIndependent : Prop :=
  ∀ (b b' : Frame25) (i : Fin 16) (s : State), Frame25.Valid b → Frame25.Valid b' →
    (∀ t : Fin 11, Frame25.bit b (8 + 11 * i.val + t.val) = Frame25.bit b' (8 + 11 * i.val + t.val)) →
    ∃ f f' : Frame,
      exec (.decode b) s = .next { s with decIn := b, decResult := .ok f } ∧
      exec (.decode b') s = .next { s with decIn := b', decResult := .ok f' } ∧ f.ch[i] = f'.ch[i]

/-- Valid and canonical frames by the 200-bit masks of spec/30_encoding.md section 3. -/
def Obligations.MasksDecideValidAndCanonical : Prop :=
  ∀ b : Frame25,
    (Frame25.Valid b ↔
      toVector b &&& 0xff0000000000000000000000000000000000000000000000ff = 0x0f) ∧
    (Frame25.Canonical b ↔
      toVector b &&& 0xff0f00000000000000000000000000000000000000000000ff = 0x0f)

/-! ## The machine -/

/-- What the ports show with every input 0 (spec/10_state.md section 5). That the inputs are 0 at reset and that nothing is
asked for is the model's choice, log entry 3. -/
def Obligations.ResetShowsZeroInputs : Prop :=
  (∀ i : Fin 16, State.reset.encIn.ch[i] = 0) ∧ State.reset.encIn.flags = ⟨false, false, false, false⟩ ∧
  (∀ j, j < 25 → byteAt State.reset.encOut j = if j = 0 then 0x0F else 0x00) ∧
  (∀ j, j < 25 → byteAt State.reset.decIn j = 0x00) ∧
  State.reset.decStatus = 1 ∧ State.reset.decErrByte = 0x00 ∧ (∀ i : Fin 16, State.reset.decCh i = 0x0000) ∧
  State.reset.decCh17 = false ∧ State.reset.decCh18 = false ∧
  State.reset.decFramelost = false ∧ State.reset.decFailsafe = false ∧ State.reset.pending = []

/-- The state after reset meets the two invariants. -/
def Obligations.ResetMeetsInvariants : Prop := Coherent State.reset ∧ OutputsLegal State.reset

/-- Each unit's output is its function of its input in every state: the invariant that every step keeps (spec/10_state.md
section 4; stored outputs are the model's choice, log entry 9). -/
def Obligations.StepKeepsPortsCoherent : Prop :=
  ∀ s t : State, Coherent s → step s = .next t → Coherent t

/-- The caller only ever sees canonical frames from ENC and legal results from DEC (spec/70_reset_and_hazards.md section 5):
every step keeps it. -/
def Obligations.StepKeepsOutputsLegal : Prop :=
  ∀ s t : State, OutputsLegal s → step s = .next t → OutputsLegal t

/-- A step is the caller's next evaluation, and what it makes of a request that is no input, or of none (log entries 1, 2
and 6). -/
def Obligations.StepRunsRequestedEvaluation : Prop :=
  (∀ (s : State) (i : Instr) (r : Request) (rs : List Request), s.pending = r :: rs → decodeRequest r = .ok i →
    step s = exec i { s with pending := rs }) ∧
  (∀ s : State, s.pending = [] → step s = .next s)

/-- A step stops exactly when the next request is no input of the block: a buffer that is not 25 bytes long, or not 16
channel values; it never faults (log entry 6). -/
def Obligations.StepStopsOnlyOnNonInputs : Prop :=
  ∀ s : State,
    (∀ q : Refusal, step s = .refused q ↔
      (∃ bs rs, s.pending = .dec bs :: rs ∧ bs.length ≠ 25 ∧ q = .notAFrameBuffer bs.length) ∨
      (∃ chs fl rs, s.pending = .enc chs fl :: rs ∧ chs.length ≠ 16 ∧ q = .notAChannelList chs.length)) ∧
    ((∃ t, step s = .next t) ∨ ∃ q, step s = .refused q)

/-- No evaluation stalls (spec/20_memory.md section 5, "Liveness"): exec answers a next state for every instruction from every
state. That the caller's list is left alone is about the model's own field `pending`, log entry 1. What the evaluation
yields is said by EncodeResultAsOneNumber and DecodeResultFromStream. -/
def Obligations.EvaluationsNeverStall : Prop :=
  ∀ (i : Instr) (s : State), ∃ t : State, exec i s = .next t ∧ t.pending = s.pending

/-- The units do not see each other (spec/00_scope.md section 1): an evaluation of each, in either order, gives the same
state. -/
def Obligations.UnitsCommute : Prop :=
  ∀ (f : Frame) (b : Frame25) (s : State), ∃ (out : Frame25) (r : DecodeResult),
    exec (.encode f) s = .next { s with encIn := f, encOut := out } ∧
    exec (.decode b) s = .next { s with decIn := b, decResult := r } ∧
    exec (.decode b) { s with encIn := f, encOut := out } =
      .next { s with encIn := f, encOut := out, decIn := b, decResult := r } ∧
    exec (.encode f) { s with decIn := b, decResult := r } =
      .next { s with encIn := f, encOut := out, decIn := b, decResult := r }

/-- No evaluation is remembered (spec/20_memory.md section 5): after any list of evaluations from any state, DEC shows what
one evaluation of the last DECODE operand gives from any other state `z`, and ENC likewise. The list, its requests and how a
run comes about are the model's choice, log entries 1 and 11. -/
def Obligations.RunsRememberOnlyTheLastOperand : Prop :=
  (∀ (s z : State) (before after : List Instr) (b : Frame25), (∀ i ∈ after, ∃ f, i = .encode f) →
    s.pending = (before ++ .decode b :: after).map encodeRequest → ∃ t u : State,
      core.run (before.length + 1 + after.length) s = .next t ∧ exec (.decode b) z = .next u ∧
      t.decIn = b ∧ t.decResult = u.decResult ∧ t.pending = []) ∧
  (∀ (s z : State) (before after : List Instr) (f : Frame), (∀ i ∈ after, ∃ b, i = .decode b) →
    s.pending = (before ++ .encode f :: after).map encodeRequest → ∃ t u : State,
      core.run (before.length + 1 + after.length) s = .next t ∧ exec (.encode f) z = .next u ∧
      t.encIn = f ∧ t.encOut = u.encOut ∧ t.pending = [])

/-- The units do not see each other, for one step from every state (spec/00_scope.md section 1): a step that asks nothing of
DEC keeps `dec_frame` and DEC's result, and a step that asks nothing of ENC keeps ENC's inputs and `enc_frame`. What a step
asks for is the head of the model's own list of requests, log entry 1. -/
def Obligations.StepKeepsTheUnitNotUsed : Prop :=
  ∀ s t : State, step s = .next t →
    ((s.pending = [] ∨ ∃ chs fl rs, s.pending = .enc chs fl :: rs) → t.decIn = s.decIn ∧ t.decResult = s.decResult) ∧
    ((s.pending = [] ∨ ∃ bs rs, s.pending = .dec bs :: rs) → t.encIn = s.encIn ∧ t.encOut = s.encOut)

/-! ## Table words and requests -/

/-- Decode and encode agree on the words of the opcode table, at every operand the 200 bits can hold (spec/30_encoding.md
sections 2 and 3): an in-range ENCODE reads back; a DECODE operand reads back, but for a canonical frame, which reads as the
ENCODE of its fields because no bit selects the operation (log entry 4). -/
def Obligations.TableWordsRoundTrip : Prop :=
  (∀ f : Frame, Instr.wellFormed (.encode f) = true →
    decodeTableWord 200 (encodeTableWord (.encode f)) = some (.encode f)) ∧
  (∀ b : Frame25, ¬ Frame25.Canonical b →
    decodeTableWord 200 (encodeTableWord (.decode b)) = some (.decode b)) ∧
  (∀ (b : Frame25) (s : State), Frame25.Canonical b → ∃ f : Frame,
    exec (.decode b) s = .next { s with decIn := b, decResult := .ok f } ∧
    decodeTableWord 200 (encodeTableWord (.decode b)) = some (.encode f))

/-- The ENCODE row's word of an operand that fits its fields is the frame ENCODE makes of it, as a 200-bit number
(spec/30_encoding.md section 3, pattern strings). -/
def Obligations.EncodeRowWordIsItsResult : Prop :=
  ∀ (f : Frame) (s : State), Instr.wellFormed (.encode f) = true → ∃ out : Frame25,
    exec (.encode f) s = .next { s with encIn := f, encOut := out } ∧ encodeTableWord (.encode f) = (toVector out).toNat

/-- A request read as an instruction is the request that asks for it: nothing of it is dropped. Requests and how they are
read are the model's choice, log entries 1 and 6: the block decodes no instruction. -/
def Obligations.DecodedRequestIsRecovered : Prop :=
  ∀ (r : Request) (i : Instr), decodeRequest r = .ok i → encodeRequest i = r

/-- A table word placed where the step fetches is the instruction the next step runs, on the state it was placed in (log
entries 4 and 11). -/
def Obligations.PlacedTableWordRuns : Prop :=
  ∀ (s : State) (nbits w : Nat) (i : Instr), decodeTableWord nbits w = some i →
    step (s.withFetchWord nbits w) = exec i s

/-- Words written out from spec/95_test_vectors.md: the blank frame and S4 read as ENCODE, D6 and D9 as DECODE. -/
def Obligations.SampleTableWordsDecode : Prop :=
  decodeTableWord 200 0x0F =
    some (.encode ⟨#v[0, 0, 0, 0, 0, 0, 0, 0, 0, 0, 0, 0, 0, 0, 0, 0], ⟨false, false, false, false⟩⟩) ∧
  decodeTableWord 200 0x07FF0F =
    some (.encode ⟨#v[0x7FF, 0, 0, 0, 0, 0, 0, 0, 0, 0, 0, 0, 0, 0, 0, 0], ⟨false, false, false, false⟩⟩) ∧
  decodeTableWord 200 (0x0F * 2 ^ 184 + 0x0F) =
    some (.decode #v[0x0F, 0, 0, 0, 0, 0, 0, 0, 0, 0, 0, 0, 0, 0, 0, 0, 0, 0, 0, 0, 0, 0, 0, 0x0F, 0]) ∧
  decodeTableWord 200 0 =
    some (.decode #v[0, 0, 0, 0, 0, 0, 0, 0, 0, 0, 0, 0, 0, 0, 0, 0, 0, 0, 0, 0, 0, 0, 0, 0, 0])
end

