-- ==== Sys2Proof/Laws/Buffer.lean ====
section
/-! SUPPORT. The frame buffer: what a read and a write of it give, byte by byte and bit by bit. -/

namespace Sys2Proof.Machine

theorem byteAt_of_lt (B : Frame25) {j : Nat} (h : j < 25) : byteAt B j = B[j] := by
  simp [byteAt, h]

theorem byteAt_of_ge (B : Frame25) {j : Nat} (h : 25 ≤ j) : byteAt B j = 0 := by
  simp [byteAt, h]

/-- Two wire frames with equal bytes are equal. -/
theorem frame25_ext {A B : Frame25} (h : ∀ j, j < 25 → byteAt A j = byteAt B j) : A = B := by
  ext j hj : 1
  simpa [byteAt_of_lt _ hj] using h j hj

/-- A write gives the written bytes inside its range and leaves every other byte alone. -/
theorem byteAt_memWrite (B : Frame25) (a n v j : Nat) :
    byteAt (memWrite B a n v) j =
      if j < 25 ∧ a ≤ j ∧ j < a + n then BitVec.ofNat 8 (v >>> (8 * (j - a))) else byteAt B j := by
  by_cases h : j < 25
  · simp [byteAt, memWrite, h]
  · rw [byteAt_of_ge _ (by omega), byteAt_of_ge _ (by omega)]
    simp [h]

theorem memRead_lt (B : Frame25) (a n : Nat) : memRead B a n < 2 ^ (8 * n) := by
  induction n with
  | zero => simp [memRead]
  | succ n ih =>
    have hb : (byteAt B (a + n)).toNat ≤ 255 := by have := (byteAt B (a + n)).isLt; omega
    have := Nat.mul_le_mul_right (2 ^ (8 * n)) hb
    rw [memRead, show 8 * (n + 1) = 8 * n + 8 by ring, pow_add]
    omega

/-- A read is little endian: bit `s` of the integer is bit `s mod 8` of byte `addr + s/8`. -/
theorem memRead_testBit (B : Frame25) (a n s : Nat) :
    (memRead B a n).testBit s = (decide (s < 8 * n) && (byteAt B (a + s / 8)).getLsbD (s % 8)) := by
  induction n with
  | zero => simp [memRead]
  | succ n ih =>
    rw [memRead, Nat.add_comm, Nat.mul_comm, Nat.testBit_two_pow_mul_add _ (memRead_lt B a n)]
    by_cases h : s < 8 * n
    · simp [h, ih, show s < 8 * (n + 1) by omega]
    · rw [if_neg h]
      by_cases h' : s < 8 * (n + 1)
      · rw [show s / 8 = n by omega, show s % 8 = s - 8 * n by omega]
        simp [h', BitVec.getLsbD]
      · simp only [h', decide_false, Bool.false_and]
        exact Nat.testBit_eq_false_of_lt ((byteAt B (a + n)).isLt.trans_le (Nat.pow_le_pow_right (by decide) (by omega)))

/-- Section 5.3: the integer a read gives is `sum B[addr+k] * 2^(8*k)`. -/
theorem memRead_eq_sum (B : Frame25) (a n : Nat) :
    memRead B a n = ∑ k : Fin n, (byteAt B (a + k.val)).toNat * 2 ^ (8 * k.val) := by
  induction n with
  | zero => rfl
  | succ n ih => rw [Fin.sum_univ_castSucc, memRead, ih]; rfl

/-- Reading one byte gives that byte. -/
theorem memRead_one (B : Frame25) (a : Nat) : memRead B a 1 = (byteAt B a).toNat := by
  simp [memRead]

/-- A read after a write to the same place gives the value written, narrowed to the bytes written. -/
theorem memRead_memWrite (B : Frame25) {a n : Nat} (v : Nat) (h : a + n ≤ 25) :
    memRead (memWrite B a n v) a n = v % 2 ^ (8 * n) := by
  refine Nat.eq_of_testBit_eq fun s => ?_
  rw [memRead_testBit, Nat.testBit_mod_two_pow, byteAt_memWrite]
  by_cases hs : s < 8 * n
  · rw [if_pos (by omega)]
    simp only [hs, decide_true, Bool.true_and, BitVec.getLsbD_ofNat, Nat.testBit_shiftRight,
      show a + s / 8 - a = s / 8 by omega, show 8 * (s / 8) + s % 8 = s by omega,
      show s % 8 < 8 by omega]
  · simp [hs]

/-- A read outside a write's range sees nothing of it. -/
theorem memRead_memWrite_of_disjoint (B : Frame25) {a n a' n' : Nat} (v : Nat) (h : a' + n' ≤ a ∨ a + n ≤ a') :
    memRead (memWrite B a n v) a' n' = memRead B a' n' := by
  refine Nat.eq_of_testBit_eq fun s => ?_
  rw [memRead_testBit, memRead_testBit, byteAt_memWrite]
  by_cases hs : s < 8 * n'
  · rw [if_neg (by omega)]
  · simp [hs]

/-- 00_scope.md section 5.2: `F[8*j + b] = B[j][b]`. -/
theorem toVector_getLsbD (B : Frame25) (n : Nat) :
    (toVector B).getLsbD n = (decide (n < 200) && (byteAt B (n / 8)).getLsbD (n % 8)) := by
  rw [toVector, BitVec.getLsbD_ofNat, memRead_testBit]
  simp

/-- The vector view loses nothing. -/
theorem toVector_injective {A B : Frame25} (h : toVector A = toVector B) : A = B := by
  refine frame25_ext fun j hj => BitVec.eq_of_getLsbD_eq fun b hb => ?_
  have h' : (toVector A).getLsbD (8 * j + b) = (toVector B).getLsbD (8 * j + b) := by rw [h]
  rw [toVector_getLsbD, toVector_getLsbD] at h'
  simpa only [show 8 * j + b < 200 by omega, show (8 * j + b) / 8 = j by omega,
    show (8 * j + b) % 8 = b by omega, decide_true, Bool.true_and] using h'

end Sys2Proof.Machine
end

