-- ==== Sys2Proof/Laws/Flags.lean ====
section
/-! SUPPORT. The flag byte, bit by bit. -/

namespace Sys2Proof.Machine

/-- R55: the flag byte fits a byte and its low four bits are 0. -/
theorem flagByte_lt (fl : Flags) : flagByte fl < 256 ∧ flagByte fl % 16 = 0 := by
  obtain ⟨a, b, c, d⟩ := fl
  revert a b c d
  decide

/-- R55: the flag byte, bit by bit. -/
theorem flagByte_testBit (fl : Flags) :
    (∀ k, k < 4 → (flagByte fl).testBit k = false) ∧ (flagByte fl).testBit 4 = fl.failsafe ∧
      (flagByte fl).testBit 5 = fl.framelost ∧ (flagByte fl).testBit 6 = fl.ch18 ∧ (flagByte fl).testBit 7 = fl.ch17 := by
  obtain ⟨a, b, c, d⟩ := fl
  revert a b c d
  decide

/-- R66 reads back what R55 writes. -/
theorem flagsOf_flagByte (fl : Flags) : flagsOf (flagByte fl) = fl := by
  obtain ⟨a, b, c, d⟩ := fl
  revert a b c d
  decide

/-- R55 writes back what R66 reads, with the reserved bits 0 (R68). -/
theorem flagByte_flagsOf (v : Byte) : BitVec.ofNat 8 (flagByte (flagsOf v.toNat)) = v &&& 0xF0 := by
  revert v
  decide

end Sys2Proof.Machine
end

