-- ==== Sys2Proof/Laws/Operands.lean ====
section
/-! SUPPORT. Masking, packing and extraction of channel values, bit by bit. -/

namespace Sys2Proof.Machine

theorem maskChannel_testBit (c : Channel) (t : Nat) :
    (maskChannel c).testBit t = (decide (t < 11) && c.getLsbD t) := by
  rw [maskChannel, Config.chMask, show 0x07FF = 2 ^ 11 - 1 by decide, Nat.testBit_and, Nat.testBit_two_pow_sub_one,
    Bool.and_comm]
  rfl

/-- R52: the mask is the remainder modulo 2048. -/
theorem maskChannel_eq_mod (c : Channel) : maskChannel c = c.toNat % 2048 :=
  Nat.and_two_pow_sub_one_eq_mod c.toNat 11

/-- A bit of an OR folded over a list is set when it is set in some part. -/
theorem foldl_or_testBit {α : Type} (g : α → Nat) (l : List α) (z s : Nat) :
    (l.foldl (fun S i => S ||| g i) z).testBit s = (z.testBit s || l.any fun i => (g i).testBit s) := by
  induction l generalizing z with
  | nil => simp
  | cons a l ih => simp [ih, Bool.or_assoc]

/-- R53: stream bit `s` is bit `s mod 11` of the masked value of channel `s/11`; above bit 175 the stream is 0. -/
theorem packChannels_testBit (ch : Channels) (s : Nat) :
    (packChannels ch).testBit s = if h : s < 176 then ch[s / 11].getLsbD (s % 11) else false := by
  rw [packChannels, foldl_or_testBit, Nat.zero_testBit, Bool.false_or]
  by_cases h : s < 176
  · have hk : s / 11 < 16 := by omega
    rw [dif_pos h, Bool.eq_iff_iff, List.any_eq_true]
    simp only [List.mem_finRange, true_and, Nat.testBit_shiftLeft, maskChannel_testBit, Config.chWidth, Bool.and_eq_true,
      decide_eq_true_eq, Fin.getElem_fin]
    refine ⟨fun ⟨i, h1, h2, h3⟩ => ?_, fun hb => ⟨⟨s / 11, hk⟩, ?_, ?_, ?_⟩⟩
    · have e1 : s / 11 = i.val := by omega
      have e2 : s % 11 = s - 11 * i.val := by omega
      simpa only [e1, e2] using h3
    · show 11 * (s / 11) ≤ s
      omega
    · show s - 11 * (s / 11) < 11
      omega
    · have e2 : s - 11 * (s / 11) = s % 11 := by omega
      simpa only [e2] using hb
  · rw [dif_neg h, List.any_eq_false]
    intro i _
    have := i.isLt
    simp only [Nat.testBit_shiftLeft, maskChannel_testBit, Config.chWidth]
    simp [show ¬ s - 11 * i.val < 11 by omega]

/-- R64: bit `t` of an extracted channel is stream bit `11*i + t`; bits 15 to 11 are 0. -/
theorem unpackChannel_getLsbD (S i t : Nat) :
    (unpackChannel S i).getLsbD t = (decide (t < 11) && S.testBit (11 * i + t)) := by
  rw [unpackChannel, BitVec.getLsbD_ofNat, Config.chMask, show 0x07FF = 2 ^ 11 - 1 by decide, Nat.testBit_and,
    Nat.testBit_two_pow_sub_one, Nat.testBit_shiftRight, Config.chWidth]
  by_cases h : t < 11
  · simp [h, show t < 16 by omega]
  · simp [h]

/-- R67: an extracted channel lies in [0, 2047]. -/
theorem unpackChannel_le (S i : Nat) : (unpackChannel S i).toNat ≤ 2047 := by
  have : (S >>> (Config.chWidth * i)) &&& Config.chMask ≤ 2047 := Nat.and_le_right
  rw [unpackChannel, BitVec.toNat_ofNat]
  exact (Nat.mod_le _ _).trans this

theorem unpackChannels_getElem (S i : Nat) (h : i < 16) : (unpackChannels S)[i] = unpackChannel S i := by
  simp [unpackChannels]

end Sys2Proof.Machine
end

