-- ==== Sys2Proof/Laws/Decoder.lean ====
section
/-! SUPPORT. All that DECODE can answer (spec/41_decode.md rules R60 to R68). -/

namespace Sys2Proof.Machine

/-- R61: the three outcomes of DECODE, by its marker bytes. -/
theorem decodeFrame_eq (B : Frame25) :
    decodeFrame B =
      if B[0] ≠ 0x0F then .err (.invalidStartByte B[0])
      else if B[24] ≠ 0x00 then .err (.invalidEndByte B[24])
      else .ok (extractFrame B) := by
  have h0 : memRead B 0 1 = B[0].toNat := by rw [memRead_one, byteAt_of_lt _ (by omega)]
  have h24 : memRead B 24 1 = B[24].toNat := by rw [memRead_one, byteAt_of_lt _ (by omega)]
  have e0 : B[0].toNat ≠ Config.startMarker.toNat ↔ B[0] ≠ 0x0F := not_congr BitVec.toNat_inj
  have e24 : B[24].toNat ≠ Config.endMarker.toNat ↔ B[24] ≠ 0x00 := not_congr BitVec.toNat_inj
  simp only [decodeFrame, h0, h24, e0, e24, raise, BitVec.ofNat_toNat, BitVec.setWidth_eq]

/-- R71: with both markers right DECODE cannot fail. -/
theorem decodeFrame_of_markers {B : Frame25} (h0 : B[0] = 0x0F) (h24 : B[24] = 0x00) :
    decodeFrame B = .ok (extractFrame B) := by
  rw [decodeFrame_eq, if_neg (not_not.mpr h0), if_neg (not_not.mpr h24)]

/-- R64: bit `t` of channel `i` is the payload bit at stream position `11*i + t`; bits 15 to 11 are 0. -/
theorem extractFrame_bit (B : Frame25) {i : Nat} (t : Nat) (h : i < 16) :
    (extractFrame B).ch[i].getLsbD t =
      (decide (t < 11) && (byteAt B (1 + (11 * i + t) / 8)).getLsbD ((11 * i + t) % 8)) := by
  rw [extractFrame, unpackChannels_getElem _ _ h, unpackChannel_getLsbD, memRead_testBit]
  by_cases ht : t < 11
  · simp [ht, show 11 * i + t < 176 by omega]
  · simp [ht]

/-- R66: the flags are bits 7 to 4 of byte 23. -/
theorem extractFrame_flags (B : Frame25) : (extractFrame B).flags = flagsOf B[23].toNat := by
  rw [extractFrame, memRead_one, byteAt_of_lt _ (by omega)]

/-- R67: every extracted channel lies in [0, 2047]. -/
theorem extractFrame_le (B : Frame25) {i : Nat} (h : i < 16) : (extractFrame B).ch[i].toNat ≤ 2047 := by
  rw [extractFrame, unpackChannels_getElem _ _ h]
  exact unpackChannel_le _ _

end Sys2Proof.Machine
end

