-- ==== Sys2Proof/Laws/PerInstr.lean ====
section
/-! SUPPORT. A law of every instruction as syntax: the request that asks for it is read back as it (R49, R107). -/

namespace Sys2Proof.Laws.RequestRoundTrip

/-- The decoder reads the instruction back from the request that asks for it, at every value of its operand. -/
def Statement (i : Instr) : Prop := decodeRequest (encodeRequest i) = .ok i

theorem encode (f : Frame) : Statement (.encode f) := by
  obtain ⟨⟨ch, h⟩, fl⟩ := f
  simp [Statement, encodeRequest, decodeRequest, h]

theorem decode (b : Frame25) : Statement (.decode b) := by
  obtain ⟨b, h⟩ := b
  simp [Statement, encodeRequest, decodeRequest, h]

end Sys2Proof.Laws.RequestRoundTrip
end

