-- ==== Sys2Proof/Laws/Decode.lean ====
section
/-! SUPPORT. The decoder of requests and table words, function by function. -/

namespace Sys2Proof

open Sys2Proof.Machine

theorem decodeRequest_enc {chs : List Channel} (fl : Flags) (h : chs.length = 16) :
    decodeRequest (.enc chs fl) = .ok (.encode ⟨Vector.mk chs.toArray (by simpa using h), fl⟩) := by
  simp [decodeRequest, h]

theorem decodeRequest_dec {bs : List Byte} (h : bs.length = 25) :
    decodeRequest (.dec bs) = .ok (.decode (Vector.mk bs.toArray (by simpa using h))) := by
  simp [decodeRequest, h]

theorem decodeRequest_enc_rejected {chs : List Channel} (fl : Flags) (h : chs.length ≠ 16) :
    decodeRequest (.enc chs fl) = .error (.channelCount chs.length) := by
  simp [decodeRequest, h]

theorem decodeRequest_dec_rejected {bs : List Byte} (h : bs.length ≠ 25) :
    decodeRequest (.dec bs) = .error (.frameLength bs.length) := by
  simp [decodeRequest, h]

theorem natOfBytes_testBit (l : List Byte) (n : Nat) :
    (natOfBytes l).testBit n = (l.getD (n / 8) 0).getLsbD (n % 8) := by
  induction l generalizing n with
  | nil => simp [natOfBytes]
  | cons b bs ih =>
    rw [natOfBytes, Nat.add_comm, show 256 = 2 ^ 8 from rfl, Nat.testBit_two_pow_mul_add _ b.isLt]
    by_cases h : n < 8
    · rw [if_pos h, show n / 8 = 0 by omega, show n % 8 = n by omega]
      rfl
    · rw [if_neg h, ih, show n / 8 = (n - 8) / 8 + 1 by omega, show n % 8 = (n - 8) % 8 by omega]
      rfl

/-- The table word of a DECODE operand is the frame's 200-bit vector. -/
theorem natOfBytes_toList (B : Frame25) : natOfBytes B.toList = (toVector B).toNat := by
  refine Nat.eq_of_testBit_eq fun n => ?_
  have h := toVector_getLsbD B n
  rw [BitVec.getLsbD] at h
  rw [natOfBytes_testBit, h]
  by_cases hn : n < 200
  · simp [hn, byteAt]
  · rw [List.getD_eq_default _ _ (by simp; omega)]
    simp [hn]

theorem bytesOfVector_toVector (B : Frame25) : bytesOfVector (toVector B) = B.toList := by
  refine List.ext_getElem (by simp [bytesOfVector]) fun n h1 h2 => ?_
  have hn : n < 25 := by simpa using h2
  simp only [bytesOfVector, List.getElem_map, List.getElem_range, Vector.getElem_toList]
  refine BitVec.eq_of_getLsbD_eq fun k hk => ?_
  rw [BitVec.getLsbD_extractLsb', toVector_getLsbD, show (8 * n + k) / 8 = n by omega,
    show (8 * n + k) % 8 = k by omega, byteAt_of_lt _ hn]
  simp [hk, show 8 * n + k < 200 by omega]

/-- The channel fields of a frame's table word are what DEC extracts. -/
theorem channelFields_toVector (B : Frame25) :
    (List.range 16).map (channelField (toVector B)) = (extractFrame B).ch.toList := by
  refine List.ext_getElem (by simp) fun n h1 _ => ?_
  have hn : n < 16 := by simpa using h1
  simp only [List.getElem_map, List.getElem_range, Vector.getElem_toList]
  refine BitVec.eq_of_getLsbD_eq fun k hk => ?_
  rw [extractFrame_bit _ _ hn, channelField, BitVec.getLsbD_setWidth, BitVec.getLsbD_extractLsb', toVector_getLsbD]
  by_cases h : k < 11
  · simp [h, hk, show 8 + 11 * n + k < 200 by omega, show (8 + 11 * n + k) / 8 = 1 + (11 * n + k) / 8 by omega,
      show (8 + 11 * n + k) % 8 = (11 * n + k) % 8 by omega]
  · simp [h]

theorem flagFields_toVector (B : Frame25) : flagFields (toVector B) = (extractFrame B).flags := by
  rw [extractFrame_flags, flagFields]
  simp only [toVector_getLsbD]
  rfl

/-- What the 200-bit word of a frame is read as: the rows in the table's order. -/
theorem tableRequest_toVector (B : Frame25) :
    tableRequest 200 (toVector B).toNat =
      if matchesEncodeRow (toVector B) then .enc (extractFrame B).ch.toList (extractFrame B).flags
      else .dec B.toList := by
  have h : BitVec.ofNat 200 ((toVector B).toNat % 2 ^ 200) = toVector B := by
    rw [Nat.mod_eq_of_lt (toVector B).isLt]
    simp
  unfold tableRequest
  rw [if_pos (by decide)]
  simp only [h, channelFields_toVector, flagFields_toVector, bytesOfVector_toVector]

end Sys2Proof
end

