-- ==== Sys2Proof/Laws/Encoder.lean ====
section
/-! SUPPORT. All that ENCODE's result holds, byte by byte (spec/40_encode.md rule R51). -/

namespace Sys2Proof.Machine

/-- R51: the byte at every offset of ENCODE's result. -/
theorem byteAt_encodeFrame (f : Frame) (j : Nat) :
    byteAt (encodeFrame f) j =
      if j = 0 then 0x0F
      else if j ≤ 22 then BitVec.ofNat 8 (packChannels f.ch >>> (8 * (j - 1)))
      else if j = 23 then BitVec.ofNat 8 (flagByte f.flags)
      else 0x00 := by
  simp only [encodeFrame, byteAt_memWrite]
  rcases Nat.lt_or_ge j 25 with h | h
  · by_cases h24 : j = 24
    · subst h24; rfl
    by_cases h23 : j = 23
    · subst h23; rfl
    by_cases h0 : j = 0
    · subst h0; rfl
    simp [h0, show ¬ (24 ≤ j) by omega, show ¬ (23 ≤ j) by omega, show j ≤ 22 by omega, h,
      show 1 ≤ j by omega, show j < 23 by omega]
  · simp [show ¬ j < 25 by omega, show ¬ j ≤ 22 by omega, show j ≠ 23 by omega, show j ≠ 0 by omega,
      byteAt_of_ge newBuffer h]

/-- R26, R53: a payload bit of ENCODE's result is a bit of one channel. -/
theorem encodeFrame_payload_bit (f : Frame) {s : Nat} (h : s < 176) :
    (byteAt (encodeFrame f) (1 + s / 8)).getLsbD (s % 8) = f.ch[s / 11].getLsbD (s % 11) := by
  rw [byteAt_encodeFrame, if_neg (by omega), if_pos (by omega), BitVec.getLsbD_ofNat, Nat.testBit_shiftRight,
    show 8 * (1 + s / 8 - 1) + s % 8 = s by omega, packChannels_testBit, dif_pos h]
  simp [show s % 8 < 8 by omega]

/-- R24: the four regions of ENCODE's result, as bits of the 200-bit vector. -/
theorem encodeFrame_vector_bit (f : Frame) (n : Nat) :
    (toVector (encodeFrame f)).getLsbD n =
      if n < 8 then decide (n < 4)
      else if h : n < 184 then f.ch[(n - 8) / 11].getLsbD ((n - 8) % 11)
      else if n < 192 then (flagByte f.flags).testBit (n - 184)
      else false := by
  rw [toVector_getLsbD]
  by_cases h1 : n < 8
  · rw [byteAt_encodeFrame, if_pos (by omega)]
    interval_cases n <;> simp
  by_cases h2 : n < 184
  · have := encodeFrame_payload_bit f (s := n - 8) (by omega)
    rw [show 1 + (n - 8) / 8 = n / 8 by omega, show (n - 8) % 8 = n % 8 by omega] at this
    rw [this]
    simp [h1, h2, show n < 200 by omega]
  rw [byteAt_encodeFrame, if_neg h1, dif_neg h2, if_neg (by omega), if_neg (by omega)]
  by_cases h3 : n < 192
  · rw [if_pos (by omega), if_pos h3, BitVec.getLsbD_ofNat]
    simp [show n < 200 by omega, show n % 8 = n - 184 by omega, show n - 184 < 8 by omega]
  · rw [if_neg (by omega), if_neg h3]
    simp

/-- R31: ENCODE writes every byte of its buffer, so what the buffer held before does not matter. -/
theorem encodeFrame_covers (B : Frame25) (f : Frame) :
    memWrite (memWrite (memWrite (memWrite B 0 1 Config.startMarker.toNat) 1 22 (packChannels f.ch)) 23 1
      (flagByte f.flags)) 24 1 Config.endMarker.toNat = encodeFrame f := by
  refine frame25_ext fun j hj => ?_
  simp only [encodeFrame, byteAt_memWrite]
  split_ifs <;> first | rfl | omega

end Sys2Proof.Machine
end

