-- ==== Sys2Proof/Laws/Frame.lean ====
section
/-! SUPPORT. Frames bit by bit: equality, masking and being in range. -/

namespace Sys2Proof

/-- R13: two Frames with equal channel bits and equal flags are equal. -/
theorem frame_ext {f g : Frame} (h : ∀ i (_ : i < 16) t, f.ch[i].getLsbD t = g.ch[i].getLsbD t)
    (hf : f.flags = g.flags) : f = g := by
  obtain ⟨fc, ff⟩ := f
  obtain ⟨gc, gf⟩ := g
  simp only at hf h
  subst hf
  congr 1
  ext i hi : 1
  exact BitVec.eq_of_getLsbD_eq fun k _ => h i hi k

/-- Masking keeps bits 10 to 0 of a channel and clears the others. -/
theorem channel_mask_getLsbD (c : Channel) (t : Nat) : (c &&& 0x07FF).getLsbD t = (decide (t < 11) && c.getLsbD t) := by
  have h : (0x07FF : BitVec 16).toNat = 2 ^ 11 - 1 := by decide
  rw [BitVec.getLsbD_and, BitVec.getLsbD, BitVec.getLsbD, h, Nat.testBit_two_pow_sub_one, Bool.and_comm]

theorem frame_mask_getLsbD (f : Frame) {i : Nat} (h : i < 16) (t : Nat) :
    f.mask.ch[i].getLsbD t = (decide (t < 11) && f.ch[i].getLsbD t) := by
  simp only [Frame.mask, Vector.getElem_map]
  exact channel_mask_getLsbD _ _

@[simp] theorem frame_mask_flags (f : Frame) : f.mask.flags = f.flags := rfl

/-- A Frame in range is its own mask. -/
theorem frame_mask_of_inRange {f : Frame} (h : f.InRange) : f.mask = f := by
  refine frame_ext (fun i hi t => ?_) rfl
  rw [frame_mask_getLsbD _ hi]
  by_cases ht : t < 11
  · simp [ht]
  · have hc : f.ch[i].toNat ≤ 2047 := h ⟨i, hi⟩
    have hp : 2 ^ 11 ≤ 2 ^ t := Nat.pow_le_pow_right (by decide) (by omega)
    have : f.ch[i].getLsbD t = false := Nat.testBit_eq_false_of_lt (by omega)
    simp [ht, this]

/-- The bits of a wire frame are those of its 200-bit vector. -/
theorem frame25_bit_eq (B : Frame25) (n : Nat) : Frame25.bit B n = (Machine.byteAt B (n / 8)).getLsbD (n % 8) := rfl

end Sys2Proof
end

