-- ==== Sys2Proof/Laws/Ports.lean ====
section
/-! SUPPORT. What each output port of DEC shows for each variant of the result (spec/41_decode.md rule R70). -/

namespace Sys2Proof.Machine

variable (f : Frame) (a : Byte)

@[simp] theorem portImage_start_status : (portImage (.err (.invalidStartByte a))).status = 1 := rfl
@[simp] theorem portImage_end_status : (portImage (.err (.invalidEndByte a))).status = 2 := rfl
@[simp] theorem portImage_start_errByte : (portImage (.err (.invalidStartByte a))).errByte = a := rfl
@[simp] theorem portImage_end_errByte : (portImage (.err (.invalidEndByte a))).errByte = a := rfl
@[simp] theorem portImage_ok_status : (portImage (.ok f)).status = 0 := rfl
@[simp] theorem portImage_ok_errByte : (portImage (.ok f)).errByte = 0x00 := rfl
@[simp] theorem portImage_ok_ch : (portImage (.ok f)).ch = f.ch := rfl
@[simp] theorem portImage_ok_ch17 : (portImage (.ok f)).ch17 = f.flags.ch17 := rfl
@[simp] theorem portImage_ok_ch18 : (portImage (.ok f)).ch18 = f.flags.ch18 := rfl
@[simp] theorem portImage_ok_framelost : (portImage (.ok f)).framelost = f.flags.framelost := rfl
@[simp] theorem portImage_ok_failsafe : (portImage (.ok f)).failsafe = f.flags.failsafe := rfl

/-- D6: on an error every frame output is 0. -/
theorem portImage_err (e : FrameFormatError) :
    (portImage (.err e)).ch = zeroChannels ∧ (portImage (.err e)).ch17 = false ∧ (portImage (.err e)).ch18 = false ∧
      (portImage (.err e)).framelost = false ∧ (portImage (.err e)).failsafe = false := by
  cases e <;> exact ⟨rfl, rfl, rfl, rfl, rfl⟩

end Sys2Proof.Machine
end

