-- ==== Sys2Proof/Laws/State.lean ====
section
/-! SUPPORT. One lemma per field per update of the state. -/

namespace Sys2Proof.Machine

variable (s : State) (f : Frame) (out b : Frame25) (r : DecodeResult) (q : Request) (rs : List Request)

@[simp] theorem presentEnc_encIn : (s.presentEnc f out).encIn = f := rfl
@[simp] theorem presentEnc_encOut : (s.presentEnc f out).encOut = out := rfl
@[simp] theorem presentEnc_decIn : (s.presentEnc f out).decIn = s.decIn := rfl
@[simp] theorem presentEnc_decResult : (s.presentEnc f out).decResult = s.decResult := rfl
@[simp] theorem presentEnc_pending : (s.presentEnc f out).pending = s.pending := rfl

@[simp] theorem presentDec_encIn : (s.presentDec b r).encIn = s.encIn := rfl
@[simp] theorem presentDec_encOut : (s.presentDec b r).encOut = s.encOut := rfl
@[simp] theorem presentDec_decIn : (s.presentDec b r).decIn = b := rfl
@[simp] theorem presentDec_decResult : (s.presentDec b r).decResult = r := rfl
@[simp] theorem presentDec_pending : (s.presentDec b r).pending = s.pending := rfl

@[simp] theorem setPending_encIn : (s.setPending rs).encIn = s.encIn := rfl
@[simp] theorem setPending_encOut : (s.setPending rs).encOut = s.encOut := rfl
@[simp] theorem setPending_decIn : (s.setPending rs).decIn = s.decIn := rfl
@[simp] theorem setPending_decResult : (s.setPending rs).decResult = s.decResult := rfl
@[simp] theorem setPending_pending : (s.setPending rs).pending = rs := rfl

@[simp] theorem request_encIn : (s.request q).encIn = s.encIn := rfl
@[simp] theorem request_encOut : (s.request q).encOut = s.encOut := rfl
@[simp] theorem request_decIn : (s.request q).decIn = s.decIn := rfl
@[simp] theorem request_decResult : (s.request q).decResult = s.decResult := rfl
@[simp] theorem request_pending : (s.request q).pending = q :: s.pending := rfl

@[simp] theorem idle_eq : idle s = s := rfl

end Sys2Proof.Machine
end

