-- ==== Sys2Proof/Laws/Step.lean ====
section
/-! SUPPORT. All that a step can do. -/

namespace Sys2Proof.Machine

theorem exec_encode (f : Frame) (s : State) : exec (.encode f) s = .next (s.presentEnc f (encodeFrame f)) := rfl

theorem exec_decode (b : Frame25) (s : State) : exec (.decode b) s = .next (s.presentDec b (decodeFrame b)) := rfl

theorem fetch_nil {s : State} (h : s.pending = []) : fetch s = none := by
  simp [fetch, h]

theorem fetch_cons {s : State} {r : Request} {rs : List Request} (h : s.pending = r :: rs) :
    fetch s = some (r, s.setPending rs) := by
  simp [fetch, h]

theorem step_idle {s : State} (h : s.pending = []) : step s = .next s := by
  simp [step, fetch_nil h]

theorem step_ok {s : State} {r : Request} {rs : List Request} {i : Instr} (h : s.pending = r :: rs)
    (hr : decodeRequest r = .ok i) : step s = exec i (s.setPending rs) := by
  simp [step, fetch_cons h, hr]

theorem step_rejected {s : State} {r : Request} {rs : List Request} {e : Reject} (h : s.pending = r :: rs)
    (hr : decodeRequest r = .error e) : step s = .refused (refusalOf e) := by
  simp [step, fetch_cons h, hr]

/-- If a step answers a next state, it was idle, an evaluation of ENC or an evaluation of DEC. -/
theorem step_next_cases {s t : State} (h : step s = .next t) :
    (s.pending = [] ∧ t = s) ∨
    (∃ r rs f, s.pending = r :: rs ∧ decodeRequest r = .ok (.encode f) ∧
      t = (s.setPending rs).presentEnc f (encodeFrame f)) ∨
    (∃ r rs b, s.pending = r :: rs ∧ decodeRequest r = .ok (.decode b) ∧
      t = (s.setPending rs).presentDec b (decodeFrame b)) := by
  cases hp : s.pending with
  | nil => exact .inl ⟨rfl, by simpa [step_idle hp] using h.symm⟩
  | cons r rs =>
    cases hr : decodeRequest r with
    | error e => simp [step_rejected hp hr] at h
    | ok i =>
      rw [step_ok hp hr] at h
      cases i with
      | encode f => exact .inr (.inl ⟨r, rs, f, rfl, hr, by simpa [exec_encode] using h.symm⟩)
      | decode b => exact .inr (.inr ⟨r, rs, b, rfl, hr, by simpa [exec_decode] using h.symm⟩)

/-- A run of one step more is the step and then the run. -/
theorem run_succ {s t : State} (n : Nat) (h : step s = .next t) : Sys2Proof.core.run (n + 1) s = Sys2Proof.core.run n t := by
  have h' : Sys2Proof.core.step s = .next t := h
  simp only [Host.Core.run, h']

theorem run_zero (s : State) : Sys2Proof.core.run 0 s = .next s := rfl

end Sys2Proof.Machine
end

