-- ==== Sys2Proof/Tests/Slice0.lean ====
section
/-! SUPPORT. Tests. Expected values are the vectors of spec/95_test_vectors.md or hand calculations from the rules named;
the witnesses meet the hypotheses of the statements named. -/

namespace Sys2Proof.Tests

open Sys2Proof Sys2Proof.Machine

def noFlags : Flags := ⟨false, false, false, false⟩

/-- The Frame of vector E15. -/
def frameE15 : Frame :=
  ⟨#v[0x0AC, 0x3E0, 0x713, 0x7FF, 0x000, 0x400, 0x001, 0x7FE, 0x555, 0x2AA, 0x064, 0x0C8, 0x12C, 0x190, 0x1F4, 0x258],
   ⟨false, true, false, true⟩⟩

/-- The Frame of vector E16: E15 with 0x0800 added to every odd-indexed channel. -/
def frameE16 : Frame :=
  ⟨#v[0x00AC, 0x0BE0, 0x0713, 0x0FFF, 0x0000, 0x0C00, 0x0001, 0x0FFE, 0x0555, 0x0AAA, 0x0064, 0x08C8, 0x012C, 0x0990,
     0x01F4, 0x0A58], ⟨false, true, false, true⟩⟩

/-- The payload of vectors E15, D1, D2, D3, D4 and D5 between a start byte, a flag byte and an end byte. -/
def wire (start flags stop : Byte) : Frame25 :=
  #v[start, 0xAC, 0x00, 0xDF, 0xC4, 0xFF, 0x0F, 0x00, 0x00, 0x06, 0xC0, 0xFF, 0x55, 0x55, 0x15, 0x19, 0x90, 0xC1, 0x12,
     0xC8, 0xD0, 0x07, 0x4B, flags, stop]

/-- A frame whose payload is zero but for its last byte. -/
def zeroWire (start last flags stop : Byte) : Frame25 :=
  #v[start, 0, 0, 0, 0, 0, 0, 0, 0, 0, 0, 0, 0, 0, 0, 0, 0, 0, 0, 0, 0, 0, last, flags, stop]

/-- The state after one evaluation from reset. -/
def after (i : Instr) : State :=
  match exec i State.reset with
  | .next t => t
  | _ => State.reset

/-! ### ENCODE and DECODE, two each -/

/-- E12: every channel its own value, so that a swapped lane shows. -/
theorem test_encode_E12 :
    (after (.encode ⟨#v[1, 2, 3, 4, 5, 6, 7, 8, 9, 10, 11, 12, 13, 14, 15, 16], noFlags⟩)).encOut =
      #v[0x0F, 0x01, 0x10, 0xC0, 0x00, 0x08, 0x50, 0x00, 0x03, 0x1C, 0x00, 0x01, 0x09, 0x50, 0xC0, 0x02, 0x18, 0xD0, 0x00,
         0x07, 0x3C, 0x00, 0x02, 0x00, 0x00] := by decide

/-- E16: values above 2047 are truncated, bit 11 too, and give E15's bytes. -/
theorem test_encode_E16_masks : (after (.encode frameE16)).encOut = wire 0x0F 0x50 0x00 := by decide

/-- P2: D17 with the reserved bits set. -/
theorem test_decode_P2 :
    (after (.decode #v[0x0F, 0x01, 0x02, 0x03, 0x04, 0x05, 0x06, 0x07, 0x08, 0x09, 0x0A, 0x0B, 0x0C, 0x0D, 0x0E, 0x0F, 0x10,
      0x11, 0x12, 0x13, 0x14, 0x15, 0x16, 0xAF, 0x00])).decResult =
      .ok ⟨#v[0x201, 0x060, 0x410, 0x302, 0x070, 0x210, 0x282, 0x058, 0x50C, 0x1C1, 0x03C, 0x088, 0x121, 0x026, 0x545, 0x0B0],
        ⟨true, false, true, false⟩⟩ := by decide

/-- D4 and D3 at the ports: with both markers wrong the start byte alone is reported. -/
theorem test_decode_D4_D3 :
    (after (.decode (wire 0x00 0x50 0xFF))).decPorts = errorPorts 1 0x00 ∧
    (after (.decode (wire 0x0F 0x50 0x04))).decPorts = errorPorts 2 0x04 := by decide

/-! ### WellFormed and the checks on a request -/

theorem test_wellFormed_accepts : Instr.wellFormed (.encode frameE15) = true ∧
    Instr.wellFormed (.decode (wire 0xFF 0xFF 0xFF)) = true := by decide

/-- An ill-formed term for the one check: 2048 does not fit the 11-bit field of channel 15. -/
theorem test_wellFormed_refuses_2048 :
    Instr.wellFormed (.encode ⟨#v[0, 0, 0, 0, 0, 0, 0, 0, 0, 0, 0, 0, 0, 0, 0, 0x0800], noFlags⟩) = false := by decide

/-- R14: a buffer of 24 bytes is no input. -/
theorem test_reject_24_bytes : decodeRequest (.dec (List.replicate 24 0)) = .error (.frameLength 24) := rfl

/-- R14: a buffer of 26 bytes is no input. -/
theorem test_reject_26_bytes : decodeRequest (.dec (List.replicate 26 0)) = .error (.frameLength 26) := rfl

/-- R10: 15 channel values are no input. -/
theorem test_reject_15_channels : decodeRequest (.enc (List.replicate 15 0) noFlags) = .error (.channelCount 15) := rfl

/-! ### Table words, written out field by field from the pattern strings of R47 -/

/-- The ENCODE row's pattern with the fields of E15: end marker, WXYZ, 0000, p to a, start marker. -/
theorem test_word_encode :
    decodeTableWord 200 (0b00000000#8 ++ 0b0101#4 ++ 0b0000#4 ++ 0b01001011000#11 ++ 0b00111110100#11 ++ 0b00110010000#11
      ++ 0b00100101100#11 ++ 0b00011001000#11 ++ 0b00001100100#11 ++ 0b01010101010#11 ++ 0b10101010101#11
      ++ 0b11111111110#11 ++ 0b00000000001#11 ++ 0b10000000000#11 ++ 0b00000000000#11 ++ 0b11111111111#11
      ++ 0b11100010011#11 ++ 0b01111100000#11 ++ 0b00010101100#11 ++ 0b00001111#8).toNat = some (.encode frameE15) := by
  decide

/-- The DECODE row's pattern with a reserved bit set: the operand is the 25 bytes, byte 0 in the low bits. -/
theorem test_word_decode :
    decodeTableWord 200 (0b00000000#8 ++ 0b1000#4 ++ 0b0001#4 ++ 0b10000000000#11 ++ (0#165) ++ 0b00001111#8).toNat =
      some (.decode (zeroWire 0x0F 0x80 0x81 0x00)) := by decide

/-! ### Witnesses: the hypotheses of the statements can be met -/

/-- DecodeReportsWrongStartByte, StartErrorHasPriority, and the start case of DecodeResultFromStream and DecodePortImage. -/
theorem test_witness_wrong_start :
    (wire 0x00 0x50 0xFF)[0] ≠ 0x0F ∧ (wire 0x00 0x50 0xFF)[24] ≠ 0x00 ∧
    (zeroWire 0 0 0 0)[0] = (wire 0x00 0x50 0xFF)[0] ∧
    (toVector (wire 0x0E 0x50 0x00)).extractLsb' 0 8 ≠ 0x0F := by decide

/-- DecodeReportsWrongEndByte, and the end case of DecodeResultFromStream and DecodePortImage. -/
theorem test_witness_wrong_end :
    (wire 0x0F 0x50 0x01)[0] = 0x0F ∧ (wire 0x0F 0x50 0x01)[24] ≠ 0x00 ∧
    (toVector (wire 0x0F 0x50 0x01)).extractLsb' 0 8 = 0x0F ∧
    (toVector (wire 0x0F 0x50 0x01)).extractLsb' 192 8 ≠ 0x00 := by decide

theorem valid_wire : Frame25.Valid (wire 0x0F 0x50 0x00) := by constructor <;> decide

/-- DecodeExtractsChannelBits, DecodePerChannelEquations, DecodeReadsFlags, ReencodingGivesCanonicalFrame, and the Ok case of
DecodeResultFromStream and DecodePortImage. -/
theorem test_witness_valid :
    Frame25.Valid (wire 0x0F 0x50 0x00) ∧ (toVector (wire 0x0F 0x50 0x00)).extractLsb' 0 8 = 0x0F ∧
    (toVector (wire 0x0F 0x50 0x00)).extractLsb' 192 8 = 0x00 := ⟨valid_wire, by decide, by decide⟩

/-- DecodedChannelsAreInRange: an Ok result exists. -/
theorem test_witness_ok_result : decodeFrame (wire 0x0F 0x50 0x00) = .ok frameE15 := by decide

/-- ErrorResultsIgnorePayload: both alternatives. -/
theorem test_witness_error_pairs :
    ((wire 0x0E 0x50 0x00)[0] = (zeroWire 0x0E 0 0 0xFF)[0] ∧ (wire 0x0E 0x50 0x00)[0] ≠ 0x0F) ∧
    ((wire 0x0F 0x50 0x04)[0] = (zeroWire 0x0F 0 0 0x04)[0] ∧ (wire 0x0F 0x50 0x04)[24] ≠ 0x00 ∧
      (wire 0x0F 0x50 0x04)[24] = (zeroWire 0x0F 0 0 0x04)[24]) := by decide

/-- RoundTripInRange, DecodeEqualIffCanonEqual, EncodeRowWordIsItsResult and TableWordsRoundTrip: a Frame in range, with
channels at both ends of it. -/
theorem test_witness_in_range : frameE15.InRange ∧ Instr.wellFormed (.encode frameE15) = true ∧
    frameE15.ch[3].toNat = 2047 ∧ frameE15.ch[4].toNat = 0 :=
  ⟨show ∀ i : Fin 16, frameE15.ch[i].toNat ≤ 2047 by decide, by decide, by decide, by decide⟩

/-- EncodeMasksChannelsToElevenBits: two Frames that differ, with equal low bits and flags. -/
theorem test_witness_equal_low_bits : frameE16.flags = frameE15.flags ∧
    (∀ i : Fin 16, frameE16.ch[i].toNat % 2048 = frameE15.ch[i].toNat % 2048) ∧ frameE16 ≠ frameE15 := by decide

/-- EncodeFlagByteBits: the two literal cases. -/
theorem test_witness_single_flags :
    (after (.encode ⟨zeroChannels, ⟨false, false, false, true⟩⟩)).encOut[23] = 0x10 ∧
    (after (.encode ⟨zeroChannels, ⟨true, false, false, false⟩⟩)).encOut[23] = 0x80 := by decide

/-- DecodeEqualIffCanonEqual: valid frames with equal canonical frames (D1 and D5), and with different ones. -/
theorem test_witness_canon_pairs :
    Frame25.Valid (wire 0x0F 0x5F 0x00) ∧ Frame25.Valid (zeroWire 0x0F 0 0 0) ∧
    Frame25.canon (wire 0x0F 0x5F 0x00) = Frame25.canon (wire 0x0F 0x50 0x00) ∧
    Frame25.canon (zeroWire 0x0F 0 0 0) ≠ Frame25.canon (wire 0x0F 0x50 0x00) := by
  refine ⟨?_, ?_, by decide, by decide⟩ <;> constructor <;> decide

/-- DecodeLanesAreIndependent at channel 0 and channel 14: frames that differ in channel 15 only. -/
theorem test_witness_lanes :
    Frame25.Valid (zeroWire 0x0F 0x80 0 0) ∧ Frame25.Valid (zeroWire 0x0F 0 0 0) ∧
    (∀ t : Fin 11, Frame25.bit (zeroWire 0x0F 0x80 0 0) (8 + 11 * 0 + t.val) =
      Frame25.bit (zeroWire 0x0F 0 0 0) (8 + 11 * 0 + t.val)) ∧
    (∀ t : Fin 11, Frame25.bit (zeroWire 0x0F 0x80 0 0) (8 + 11 * 14 + t.val) =
      Frame25.bit (zeroWire 0x0F 0 0 0) (8 + 11 * 14 + t.val)) := by
  refine ⟨?_, ?_, by decide, by decide⟩ <;> constructor <;> decide

/-- EncodeLanesAreIndependent: the bits next to channel 0's field, and a flag bit whose flag is kept. -/
theorem test_witness_lane_neighbours :
    7 < 8 + 11 * (0 : Fin 16).val ∧ 8 + 11 * (0 : Fin 16).val + 10 < 19 ∧
    (⟨true, false, false, false⟩ : Flags).ch17 = (⟨true, true, true, true⟩ : Flags).ch17 := by decide

/-- Reset, with an ENCODE, a DECODE and another ENCODE asked for. -/
def busy : State :=
  State.reset.setPending (([Instr.encode frameE16] ++ Instr.decode (wire 0x0F 0x50 0xFF) :: [Instr.encode frameE15]).map encodeRequest)

/-- StepKeepsPortsCoherent and StepKeepsOutputsLegal: a state that meets both invariants and steps, and
StepRunsRequestedEvaluation: a request that is read, and no request. -/
theorem test_witness_step :
    Coherent busy ∧ OutputsLegal busy ∧ step busy = exec (.encode frameE16) { busy with pending := busy.pending.tail } ∧
    (∃ t, step busy = .next t) ∧ decodeRequest (encodeRequest (.encode frameE16)) = .ok (.encode frameE16) ∧
    State.reset.pending = [] :=
  ⟨by constructor <;> decide, ⟨⟨by constructor <;> decide, by decide⟩, show (0x00 : Byte) ≠ 0x0F by decide⟩, rfl,
    ⟨(busy.setPending busy.pending.tail).presentEnc frameE16 (encodeFrame frameE16), rfl⟩, rfl, rfl⟩

/-- StepKeepsTheUnitNotUsed: a step on a request to ENC, one on a request to DEC, and one on none. -/
theorem test_witness_unit_not_used :
    (∃ t, step busy = .next t ∧ ∃ chs fl rs, busy.pending = .enc chs fl :: rs) ∧
    (∃ t, step (busy.setPending busy.pending.tail) = .next t ∧
      ∃ bs rs, (busy.setPending busy.pending.tail).pending = .dec bs :: rs) ∧
    step State.reset = .next State.reset ∧ State.reset.pending = [] :=
  ⟨⟨(busy.setPending busy.pending.tail).presentEnc frameE16 (encodeFrame frameE16), rfl, _, _, _, rfl⟩,
    ⟨(busy.setPending busy.pending.tail.tail).presentDec (wire 0x0F 0x50 0xFF) (decodeFrame (wire 0x0F 0x50 0xFF)), rfl,
      _, _, rfl⟩, rfl, rfl⟩

/-- StepStopsOnlyOnNonInputs: both refusals happen. -/
theorem test_witness_refusals :
    step (State.reset.request (.dec [])) = .refused (.notAFrameBuffer 0) ∧
    step (State.reset.request (.enc (List.replicate 17 0) noFlags)) = .refused (.notAChannelList 17) := ⟨rfl, rfl⟩

/-- RunsRememberOnlyTheLastOperand: `busy` has a last DECODE with an ENCODE after it, and a last ENCODE with nothing after. -/
theorem test_witness_runs :
    (busy.pending = ([Instr.encode frameE16] ++ Instr.decode (wire 0x0F 0x50 0xFF) :: [Instr.encode frameE15]).map encodeRequest ∧
      ∀ i ∈ [Instr.encode frameE15], ∃ f, i = .encode f) ∧
    (busy.pending = ([Instr.encode frameE16, Instr.decode (wire 0x0F 0x50 0xFF)] ++ Instr.encode frameE15 :: []).map encodeRequest ∧
      ∀ i ∈ ([] : List Instr), ∃ b, i = .decode b) :=
  ⟨⟨rfl, by simp⟩, ⟨rfl, by simp⟩⟩

/-- TableWordsRoundTrip: a canonical operand of DECODE, and one that is not. -/
theorem test_witness_table_operands :
    Frame25.Canonical (wire 0x0F 0x50 0x00) ∧ ¬ Frame25.Canonical (wire 0x0F 0x51 0x00) :=
  ⟨⟨valid_wire, by decide⟩, fun h => absurd h.2 (by decide)⟩

/-- DecodedRequestIsRecovered and PlacedTableWordRuns: a request and a table word that are read. -/
theorem test_witness_readable :
    decodeRequest (.dec (wire 0xFF 0xFF 0xFF).toList) = .ok (.decode (wire 0xFF 0xFF 0xFF)) ∧
    decodeTableWord 200 0x0F = some (.encode ⟨zeroChannels, noFlags⟩) := by
  refine ⟨rfl, by decide⟩

end Sys2Proof.Tests
end

section
/-! SUPPORT. ENCODE's result region by region: markers, flag byte, channel fields (spec/40_encode.md rules R51 to R56). -/

namespace Sys2Proof.Machine

/-- R56: the start marker stands at offset 0. -/
theorem encodeFrame_start (f : Frame) : (encodeFrame f)[0] = 0x0F := by
  rw [← byteAt_of_lt _ (by decide), byteAt_encodeFrame, if_pos rfl]

/-- R56: the end marker stands at offset 24. -/
theorem encodeFrame_end (f : Frame) : (encodeFrame f)[24] = 0x00 := by
  rw [← byteAt_of_lt _ (by decide), byteAt_encodeFrame]
  rfl

/-- R55: the flag byte stands at offset 23. -/
theorem encodeFrame_flags (f : Frame) : (encodeFrame f)[23] = BitVec.ofNat 8 (flagByte f.flags) := by
  rw [← byteAt_of_lt _ (by decide), byteAt_encodeFrame]
  rfl

/-- R55: the flag byte loses nothing by being stored in 8 bits. -/
theorem encodeFrame_flags_toNat (f : Frame) : (encodeFrame f)[23].toNat = flagByte f.flags := by
  rw [encodeFrame_flags, BitVec.toNat_ofNat, Nat.mod_eq_of_lt (flagByte_lt f.flags).1]

/-- R55: the flag byte has no bit above bit 7. -/
theorem flagByte_testBit_high (fl : Flags) {k : Nat} (h : 8 ≤ k) : (flagByte fl).testBit k = false := by
  have hlt := (flagByte_lt fl).1
  have hpow : 2 ^ 8 ≤ 2 ^ k := Nat.pow_le_pow_right (by decide) h
  exact Nat.testBit_eq_false_of_lt (by omega)

/-- R51: byte `1+k` of the result is `S[8k+7:8k]`. -/
theorem encodeFrame_payload_toNat (f : Frame) {k : Nat} (h : k < 22) :
    (byteAt (encodeFrame f) (1 + k)).toNat = (packChannels f.ch >>> (8 * k)) % 256 := by
  rw [byteAt_encodeFrame, if_neg (by omega), if_pos (by omega), BitVec.toNat_ofNat, Nat.add_sub_cancel_left]

/-- R51: the result as one number; the three parts of the OR are the first three regions of the vector view. -/
theorem toVector_encodeFrame_toNat (f : Frame) :
    (toVector (encodeFrame f)).toNat = 0x0F ||| (packChannels f.ch <<< 8) ||| (flagByte f.flags <<< 184) := by
  refine Nat.eq_of_testBit_eq fun n => ?_
  rw [BitVec.testBit_toNat, encodeFrame_vector_bit, Nat.testBit_or, Nat.testBit_or, Nat.testBit_shiftLeft,
    Nat.testBit_shiftLeft, packChannels_testBit, show 0x0F = 2 ^ 4 - 1 by decide, Nat.testBit_two_pow_sub_one]
  by_cases h1 : n < 8
  · simp [h1, show ¬ 8 ≤ n by omega, show ¬ 184 ≤ n by omega]
  by_cases h2 : n < 184
  · simp [h1, h2, show 8 ≤ n by omega, show ¬ 184 ≤ n by omega, show ¬ n < 4 by omega, show n - 8 < 176 by omega]
  by_cases h3 : n < 192
  · simp [h1, h2, h3, show 184 ≤ n by omega, show ¬ n < 4 by omega, show ¬ n - 8 < 176 by omega]
  · simp [h1, h2, h3, flagByte_testBit_high f.flags (show 8 ≤ n - 184 by omega), show ¬ n < 4 by omega, show ¬ n - 8 < 176 by omega]

/-- R41, R52: the 11-bit field of channel `i` in the vector view is the channel cut to 11 bits. -/
theorem encodeFrame_channelField (f : Frame) (i : Fin 16) :
    (toVector (encodeFrame f)).extractLsb' (8 + 11 * i.val) 11 = f.ch[i].setWidth 11 := by
  refine BitVec.eq_of_getLsbD_eq fun t ht => ?_
  have hi := i.isLt
  rw [BitVec.getLsbD_extractLsb', encodeFrame_vector_bit, if_neg (by omega), dif_pos (by omega),
    BitVec.getLsbD_setWidth]
  simp only [show (8 + 11 * i.val + t - 8) / 11 = i.val by omega, show (8 + 11 * i.val + t - 8) % 11 = t by omega]
  rfl

/-- R53: bit `t` of masked channel `i` is the payload bit at stream position `11*i + t`. -/
theorem encodeFrame_channel_bit (f : Frame) (i : Fin 16) (t : Fin 11) :
    (byteAt (encodeFrame f) (1 + (11 * i.val + t.val) / 8)).getLsbD ((11 * i.val + t.val) % 8) =
      (f.ch[i] &&& 0x07FF).getLsbD t.val := by
  rw [encodeFrame_payload_bit f (by omega), channel_mask_getLsbD]
  simp only [show (11 * i.val + t.val) / 11 = i.val by omega, show (11 * i.val + t.val) % 11 = t.val by omega,
    t.isLt, decide_true, Bool.true_and]
  rfl

/-- R52: the stream sees the channels modulo 2048 only. -/
theorem packChannels_congr {a b : Channels} (h : ∀ i : Fin 16, a[i].toNat % 2048 = b[i].toNat % 2048) :
    packChannels a = packChannels b := by
  simp only [packChannels, maskChannel_eq_mod, h]

/-- R52: ENCODE sees the flags and the channels modulo 2048 only. -/
theorem encodeFrame_congr {f g : Frame} (hfl : g.flags = f.flags)
    (hch : ∀ i : Fin 16, g.ch[i].toNat % 2048 = f.ch[i].toNat % 2048) : encodeFrame g = encodeFrame f := by
  rw [encodeFrame, encodeFrame, packChannels_congr hch, hfl]

/-- The flag byte with the flags read as numbers. -/
theorem flagByte_eq_toNat (fl : Flags) :
    flagByte fl = (fl.ch17.toNat <<< 7) ||| (fl.ch18.toNat <<< 6) ||| (fl.framelost.toNat <<< 5) |||
      (fl.failsafe.toNat <<< 4) := by
  have hbit : ∀ b, bit b = b.toNat := by decide
  simp only [flagByte, hbit]

/-- `n` fields of `w` bits make a number of `w*n` bits. -/
theorem sum_fields_lt (w n : Nat) (m : Fin n → Nat) (hm : ∀ i, m i < 2 ^ w) :
    ∑ i, m i * 2 ^ (w * i.val) < 2 ^ (w * n) := by
  induction n with
  | zero => simp
  | succ n ih =>
    have hlow := ih (fun i => m i.castSucc) fun i => hm _
    have htop := Nat.mul_le_mul_right (2 ^ (w * n)) (hm (Fin.last n))
    rw [Nat.succ_mul, ← pow_add, show w + w * n = w * (n + 1) by ring] at htop
    rw [Fin.sum_univ_castSucc]
    simp only [Fin.val_castSucc, Fin.val_last]
    omega

/-- R53: disjoint fields, so their OR is their sum: each field starts above all the fields before it. -/
theorem foldl_or_fields_eq_sum (w n : Nat) (m : Fin n → Nat) (hm : ∀ i, m i < 2 ^ w) :
    (List.finRange n).foldl (fun S i => S ||| (m i <<< (w * i.val))) 0 = ∑ i, m i * 2 ^ (w * i.val) := by
  induction n with
  | zero => rfl
  | succ n ih =>
    have hlow := sum_fields_lt w n (fun i => m i.castSucc) fun i => hm _
    have hor := Nat.two_pow_add_eq_or_of_lt hlow (m (Fin.last n))
    rw [List.finRange_succ_last, List.foldl_append, List.foldl_map, Fin.sum_univ_castSucc]
    simp only [Fin.val_castSucc, Fin.val_last, List.foldl_cons, List.foldl_nil]
    rw [ih (fun i => m i.castSucc) fun i => hm _, Nat.shiftLeft_eq, Nat.mul_comm (m (Fin.last n)), Nat.or_comm, ← hor,
      Nat.add_comm]

/-- R53: every stream position below 176 belongs to exactly one bit of one channel. -/
theorem stream_position_unique {n : Nat} (h : n < 176) : ∃! p : Fin 16 × Fin 11, 11 * p.1.val + p.2.val = n := by
  refine ⟨(⟨n / 11, by omega⟩, ⟨n % 11, by omega⟩), Nat.div_add_mod n 11, fun ⟨i, t⟩ hp => ?_⟩
  have hp : 11 * i.val + t.val = n := hp
  refine Prod.ext (Fin.ext ?_) (Fin.ext ?_)
  · show i.val = n / 11
    omega
  · show t.val = n % 11
    omega

end Sys2Proof.Machine
end

section
/-! CLAIMS. The obligations on ENCODE (spec/40_encode.md). -/

namespace Sys2Proof.Proofs

open Sys2Proof.Machine

/-- Settles O1: the regions of ENCODE's result, with the model's stream and flag byte read as the claim writes them. -/
theorem encodeResultAsOneNumber : Obligations.EncodeResultAsOneNumber := by
  intro f s
  refine ⟨encodeFrame f, exec_encode f s, ?_⟩
  rw [← flagByte_eq_toNat]
  exact ⟨toVector_encodeFrame_toNat f, encodeFrame_start f, fun k hk => encodeFrame_payload_toNat f hk,
    encodeFrame_flags_toNat f, encodeFrame_end f⟩

/-- Settles O2: a channel's field is the channel cut to 11 bits, and ENCODE sees the channels modulo 2048 only. -/
theorem encodeMasksChannelsToElevenBits : Obligations.EncodeMasksChannelsToElevenBits := by
  intro f s
  refine ⟨encodeFrame f, exec_encode f s, fun i => ⟨?_, maskChannel_eq_mod f.ch[i]⟩, fun g hfl hch => ?_⟩
  · rw [encodeFrame_channelField, BitVec.toNat_setWidth]
  · rw [← encodeFrame_congr hfl hch]
    exact exec_encode g s

/-- Settles O3: the bits of the payload, the fields' OR as their sum, and the division of a stream position by 11. -/
theorem encodePacksChannelBits : Obligations.EncodePacksChannelBits := by
  refine ⟨fun f s => ⟨encodeFrame f, exec_encode f s, encodeFrame_channel_bit f, ?_⟩, fun n => stream_position_unique⟩
  refine foldl_or_fields_eq_sum 11 16 (fun i => f.ch[i].toNat &&& 0x07FF) fun i => ?_
  exact Nat.and_lt_two_pow _ (by decide)

/-- Settles O5: the flag byte's bits as it stands at offset 23. -/
theorem encodeFlagByteBits : Obligations.EncodeFlagByteBits := by
  intro f s
  obtain ⟨hlow, h4, h5, h6, h7⟩ := flagByte_testBit f.flags
  have hmod := (flagByte_lt f.flags).2
  have hlt := (flagByte_lt f.flags).1
  have hbit (k : Nat) : (encodeFrame f)[23].getLsbD k = (flagByte f.flags).testBit k := by
    rw [← BitVec.testBit_toNat, encodeFrame_flags_toNat]
  refine ⟨encodeFrame f, exec_encode f s, (hbit 7).trans h7, (hbit 6).trans h6, (hbit 5).trans h5, (hbit 4).trans h4,
    fun k hk => (hbit k).trans (hlow k hk), ⟨flagByte f.flags / 16, by omega, ?_⟩, fun h => ?_, fun h => ?_⟩
  · rw [encodeFrame_flags_toNat]
    omega
  · rw [encodeFrame_flags, h]
    rfl
  · rw [encodeFrame_flags, h]
    rfl

/-- Settles O6: the marker bytes of ENCODE's result. -/
theorem encodeMarkersAreConstant : Obligations.EncodeMarkersAreConstant :=
  fun f s => ⟨encodeFrame f, exec_encode f s, encodeFrame_start f, encodeFrame_end f⟩

end Sys2Proof.Proofs
end

section
/-! SUPPORT. DECODE's result case by case, and the extracted Frame in the terms of spec/41_decode.md (rules R60 to R68). -/

namespace Sys2Proof.Machine

/-- R62: a wrong start marker ends DECODE with the byte itself. -/
theorem decodeFrame_of_start_ne {B : Frame25} (h0 : B[0] ≠ 0x0F) : decodeFrame B = .err (.invalidStartByte B[0]) := by
  rw [decodeFrame_eq, if_pos h0]

/-- R63: a wrong end marker ends DECODE with the byte itself, once the start marker is right. -/
theorem decodeFrame_of_end_ne {B : Frame25} (h0 : B[0] = 0x0F) (h24 : B[24] ≠ 0x00) :
    decodeFrame B = .err (.invalidEndByte B[24]) := by
  rw [decodeFrame_eq, if_neg (not_not.mpr h0), if_pos h24]

/-- R60: the only Frame DECODE can answer is the extracted one. -/
theorem eq_extractFrame_of_decodeFrame_ok {B : Frame25} {f : Frame} (h : decodeFrame B = .ok f) : f = extractFrame B := by
  rw [decodeFrame_eq] at h
  split at h
  · nomatch h
  · split at h
    · nomatch h
    · exact (DecodeResult.ok.inj h).symm

/-- R60: DECODE completes, only DEC's ports change, and they show its result. -/
theorem exec_decode_of_eq {b : Frame25} {r : DecodeResult} (s : State) (h : decodeFrame b = r) :
    exec (.decode b) s = .next (s.presentDec b r) := by
  rw [exec_decode, h]

/-- R60: extraction to 16 bits loses nothing of the 11 bits that the mask keeps. -/
theorem unpackChannel_toNat (S i : Nat) : (unpackChannel S i).toNat = (S >>> (11 * i)) &&& 0x07FF := by
  have hle : (S >>> (11 * i)) &&& 0x07FF ≤ 0x07FF := Nat.and_le_right
  exact Nat.mod_eq_of_lt (hle.trans_lt (by decide))

/-- R60: an extracted channel as a number, from the stream that bytes 1 to 22 sum to. -/
theorem extractFrame_ch_toNat (B : Frame25) (i : Fin 16) :
    (extractFrame B).ch[i].toNat =
      ((∑ k : Fin 22, (byteAt B (1 + k.val)).toNat * 2 ^ (8 * k.val)) >>> (11 * i.val)) &&& 0x07FF := by
  rw [← memRead_eq_sum, ← unpackChannel_toNat, ← unpackChannels_getElem _ _ i.isLt]
  rfl

/-- R64: bit `t` of channel `i` is the payload bit at stream position `11*i + t`. -/
theorem extractFrame_ch_getLsbD (B : Frame25) (i : Fin 16) (t : Fin 11) :
    (extractFrame B).ch[i].getLsbD t.val =
      (byteAt B (1 + (11 * i.val + t.val) / 8)).getLsbD ((11 * i.val + t.val) % 8) := by
  rw [Fin.getElem_fin, extractFrame_bit B t.val i.isLt, decide_eq_true t.isLt, Bool.true_and]

/-- R67: bits 15 to 11 of an extracted channel are 0. -/
theorem extractFrame_ch_getLsbD_high (B : Frame25) (i : Fin 16) {t : Nat} (ht : 11 ≤ t) :
    (extractFrame B).ch[i].getLsbD t = false := by
  rw [Fin.getElem_fin, extractFrame_bit B t i.isLt, decide_eq_false (by omega), Bool.false_and]

/-- R64: in the vector view, an extracted channel is its 11-bit field, zero extended. -/
theorem extractFrame_ch_eq_slice (B : Frame25) (i : Fin 16) :
    (extractFrame B).ch[i] = ((toVector B).extractLsb' (8 + 11 * i.val) 11).setWidth 16 := by
  have hfield : (extractFrame B).ch.toList[i.val]'(by simp) = channelField (toVector B) i.val := by
    simp only [← channelFields_toVector, List.getElem_map, List.getElem_range]
  rw [Vector.getElem_toList, channelField] at hfield
  exact hfield

/-- A byte replaced at an offset of the buffer is read there, and the others stay. -/
theorem byteAt_set (B : Frame25) {k : Nat} (v : Byte) (hk : k < 25) (j : Nat) :
    byteAt (B.set k v) j = if k = j then v else byteAt B j := by
  simp only [byteAt, Vector.getElem?_set]
  split <;> rfl

/-- R68: no extracted channel sees the flag byte; their bits lie in bytes 1 to 22 (R64). -/
theorem extractFrame_ch_set_flagByte (B : Frame25) (v : Byte) : (extractFrame (B.set 23 v)).ch = (extractFrame B).ch := by
  ext i hi : 1
  refine BitVec.eq_of_getLsbD_eq fun t _ => ?_
  rw [extractFrame_bit _ t hi, extractFrame_bit _ t hi, byteAt_set]
  by_cases ht : t < 11
  · rw [if_neg (by omega)]
  · simp [ht]

/-- R68: another flag byte with the same flags gives the same result, Ok or Err. -/
theorem decodeFrame_set_flagByte {B : Frame25} {v : Byte} (h : flagsOf v.toNat = flagsOf B[23].toNat) :
    decodeFrame (B.set 23 v) = decodeFrame B := by
  have hframe : extractFrame (B.set 23 v) = extractFrame B := by
    refine frame_ext (fun i hi t => by rw [extractFrame_ch_set_flagByte]) ?_
    rw [extractFrame_flags, extractFrame_flags, Vector.getElem_set_self, h]
  have h0 : (B.set 23 v)[0] = B[0] := Vector.getElem_set_ne _ _ (by decide)
  have h24 : (B.set 23 v)[24] = B[24] := Vector.getElem_set_ne _ _ (by decide)
  rw [decodeFrame_eq, decodeFrame_eq, hframe, h0, h24]

/-- R68: the flags are read from bits 7 to 4 alone. -/
theorem flagsOf_and_high (v : Byte) : flagsOf (v &&& 0xF0).toNat = flagsOf v.toNat := by
  rw [← flagByte_flagsOf, BitVec.toNat_ofNat, Nat.mod_eq_of_lt (flagByte_lt _).1, flagsOf_flagByte]

/-- R68: other reserved bits in a flag byte leave its bits 7 to 4. -/
theorem replace_reserved_and_high (u v : Byte) : ((u &&& 0xF0) ||| (v &&& 0x0F)) &&& 0xF0 = u &&& 0xF0 := by
  rw [BitVec.and_or_distrib_right, BitVec.and_assoc, BitVec.and_assoc, show (0x0F &&& 0xF0 : Byte) = 0#8 by decide,
    BitVec.and_self, BitVec.and_zero, BitVec.or_zero]

/-- R68: other reserved bits in a flag byte leave its flags. -/
theorem flagsOf_replace_reserved (u v : Byte) : flagsOf ((u &&& 0xF0) ||| (v &&& 0x0F)).toNat = flagsOf u.toNat := by
  rw [← flagsOf_and_high, replace_reserved_and_high, flagsOf_and_high]

end Sys2Proof.Machine
end

section
/-! CLAIMS. The obligations on DECODE (spec/41_decode.md). -/

namespace Sys2Proof.Proofs

open Sys2Proof.Machine

/-- Settles O9: the cases of the markers, and the extracted Frame in the terms of the stream and the flag byte. -/
theorem decodeResultFromStream : Obligations.DecodeResultFromStream := by
  intro b s
  refine ⟨decodeFrame b, exec_decode b s, decodeFrame_of_start_ne, decodeFrame_of_end_ne, fun h0 h24 => ?_⟩
  exact ⟨extractFrame b, decodeFrame_of_markers h0 h24, extractFrame_ch_toNat b, extractFrame_flags b⟩

/-- Settles O15: the extracted channels bit by bit, their upper bits, and their slices of the vector view. -/
theorem decodeExtractsChannelBits : Obligations.DecodeExtractsChannelBits := by
  intro b s ⟨h0, h24⟩
  refine ⟨extractFrame b, exec_decode_of_eq s (decodeFrame_of_markers h0 h24), fun i =>
    ⟨extractFrame_ch_getLsbD b i, BitVec.eq_of_getLsbD_eq fun t ht => ?_, extractFrame_ch_eq_slice b i⟩⟩
  rw [BitVec.getLsbD_extractLsb', extractFrame_ch_getLsbD_high b i (Nat.le_add_right 11 t)]
  simp

/-- Settles O18: an Ok result is the extracted Frame, whose channels have 11 bits. -/
theorem decodedChannelsAreInRange : Obligations.DecodedChannelsAreInRange := by
  intro b s
  refine ⟨decodeFrame b, exec_decode b s, fun f hf i => ?_⟩
  rw [eq_extractFrame_of_decodeFrame_ok hf]
  exact ⟨extractFrame_le b i.isLt, fun t ht => extractFrame_ch_getLsbD_high b i ht⟩

/-- Settles O19: the flags do not see the reserved bits, and nothing else sees byte 23. -/
theorem decodeIgnoresReservedBits : Obligations.DecodeIgnoresReservedBits := fun b v s =>
  ⟨decodeFrame b, exec_decode b s, exec_decode_of_eq s (decodeFrame_set_flagByte (flagsOf_replace_reserved b[23] v))⟩

/-- Settles O10: the start case of DECODE. -/
theorem decodeReportsWrongStartByte : Obligations.DecodeReportsWrongStartByte :=
  fun _ s h0 => exec_decode_of_eq s (decodeFrame_of_start_ne h0)

/-- Settles O11: the end case of DECODE. -/
theorem decodeReportsWrongEndByte : Obligations.DecodeReportsWrongEndByte :=
  fun _ s h0 h24 => exec_decode_of_eq s (decodeFrame_of_end_ne h0 h24)

/-- Settles O20: DECODE's result is a function of the buffer alone, from any state. -/
theorem decodeIsPure : Obligations.DecodeIsPure :=
  fun b s s' => ⟨decodeFrame b, exec_decode b s, exec_decode b s', exec_decode b (s.presentDec b (decodeFrame b))⟩

/-- Settles O23: the buffer's markers are right, so DECODE extracts. -/
theorem rightMarkersAlwaysDecode : Obligations.RightMarkersAlwaysDecode :=
  fun _ s => ⟨extractFrame _, exec_decode_of_eq s (decodeFrame_of_markers (by simp) (by simp))⟩

end Sys2Proof.Proofs
end

section
/-! SUPPORT. DECODE by the marker bytes, and DECODE of what ENCODE gives (spec/42_codec_laws.md). -/

namespace Sys2Proof.Machine

/-- R60, R61: one of the three cases of the marker bytes holds, and it fixes the result. -/
theorem decodeFrame_marker_cases (B : Frame25) :
    (B[0] ≠ 0x0F ∧ decodeFrame B = .err (.invalidStartByte B[0])) ∨
    (B[0] = 0x0F ∧ B[24] ≠ 0x00 ∧ decodeFrame B = .err (.invalidEndByte B[24])) ∨
    (Frame25.Valid B ∧ decodeFrame B = .ok (extractFrame B)) := by
  by_cases h0 : B[0] = 0x0F
  · by_cases h24 : B[24] = 0x00
    · exact .inr (.inr ⟨⟨h0, h24⟩, decodeFrame_of_markers h0 h24⟩)
    · exact .inr (.inl ⟨h0, h24, decodeFrame_of_end_ne h0 h24⟩)
  · exact .inl ⟨h0, decodeFrame_of_start_ne h0⟩

/-- R62: the start byte is reported exactly when it is wrong. -/
theorem decodeFrame_eq_start_error_iff (B : Frame25) :
    decodeFrame B = .err (.invalidStartByte B[0]) ↔ B[0] ≠ 0x0F := by
  refine ⟨fun hr => ?_, decodeFrame_of_start_ne⟩
  obtain ⟨h0, -⟩ | ⟨-, -, hr'⟩ | ⟨-, hr'⟩ := decodeFrame_marker_cases B
  · exact h0
  · nomatch hr.symm.trans hr'
  · nomatch hr.symm.trans hr'

/-- R63: the end byte is reported exactly when it is wrong and the start byte right. -/
theorem decodeFrame_eq_end_error_iff (B : Frame25) :
    decodeFrame B = .err (.invalidEndByte B[24]) ↔ B[0] = 0x0F ∧ B[24] ≠ 0x00 := by
  refine ⟨fun hr => ?_, fun ⟨h0, h24⟩ => decodeFrame_of_end_ne h0 h24⟩
  obtain ⟨-, hr'⟩ | ⟨h0, h24, -⟩ | ⟨-, hr'⟩ := decodeFrame_marker_cases B
  · nomatch hr.symm.trans hr'
  · exact ⟨h0, h24⟩
  · nomatch hr.symm.trans hr'

/-- R71: decoding succeeds exactly on the valid wire frames. -/
theorem decodeFrame_eq_ok_iff_valid (B : Frame25) : (∃ f, decodeFrame B = .ok f) ↔ Frame25.Valid B := by
  refine ⟨fun ⟨f, hr⟩ => ?_, fun ⟨h0, h24⟩ => ⟨extractFrame B, decodeFrame_of_markers h0 h24⟩⟩
  obtain ⟨-, hr'⟩ | ⟨-, -, hr'⟩ | ⟨hv, -⟩ := decodeFrame_marker_cases B
  · nomatch hr.symm.trans hr'
  · nomatch hr.symm.trans hr'
  · exact hv

/-- R73: extraction reads the bits that ENCODE packed: bit `t` of channel `i` goes to stream position `11*i + t` and back,
and no bit above bit 10 is carried. -/
theorem extractFrame_encodeFrame (f : Frame) : extractFrame (encodeFrame f) = f.mask := by
  refine frame_ext (fun i hi t => ?_) ?_
  · rw [extractFrame_bit _ t hi, frame_mask_getLsbD f hi]
    by_cases ht : t < 11
    · rw [encodeFrame_payload_bit f (by omega)]
      simp only [show (11 * i + t) / 11 = i by omega, show (11 * i + t) % 11 = t by omega]
    · simp only [ht, decide_false, Bool.false_and]
  · rw [extractFrame_flags, encodeFrame_flags_toNat, flagsOf_flagByte, frame_mask_flags]

/-- R73: ENCODE's markers are right (R56), so DECODE of its output is the extraction, which masks the channels. -/
theorem decodeFrame_encodeFrame (f : Frame) : decodeFrame (encodeFrame f) = .ok f.mask := by
  rw [decodeFrame_of_markers (encodeFrame_start f) (encodeFrame_end f), extractFrame_encodeFrame]

end Sys2Proof.Machine
end

section
/-! CLAIMS. The obligations on the pair and on marker validation (spec/42_codec_laws.md). -/

namespace Sys2Proof.Proofs

open Sys2Proof.Machine

/-- Settles O26: DECODE of ENCODE's output is the masked Frame, from any state. -/
theorem roundTripMasksChannels : Obligations.RoundTripMasksChannels := fun f s =>
  ⟨encodeFrame f, exec_encode f s,
    exec_decode_of_eq (s.presentEnc f (encodeFrame f)) (decodeFrame_encodeFrame f)⟩

/-- Settles O25: the round trip in general, for a Frame that masking leaves as it is. -/
theorem roundTripInRange : Obligations.RoundTripInRange := by
  intro f s hf
  have hround := roundTripMasksChannels f s
  rwa [frame_mask_of_inRange hf] at hround

/-- Settles O12: each variant of DECODE's result, exactly under its condition on the markers. -/
theorem decodeMarkerCasesAreExhaustive : Obligations.DecodeMarkerCasesAreExhaustive := fun b s =>
  ⟨decodeFrame b, exec_decode b s, decodeFrame_eq_start_error_iff b, decodeFrame_eq_end_error_iff b,
    decodeFrame_eq_ok_iff_valid b⟩

end Sys2Proof.Proofs
end

section
/-! SUPPORT. DECODE's error results, each under its condition (spec/60_exceptions.md). -/

namespace Sys2Proof.Machine

/-- R84: DECODE's result is an error exactly in the two cases of a wrong marker, and the case fixes the error. -/
theorem decodeFrame_eq_err_iff (B : Frame25) (e : FrameFormatError) :
    decodeFrame B = .err e ↔
      (B[0] ≠ 0x0F ∧ e = .invalidStartByte B[0]) ∨ (B[0] = 0x0F ∧ B[24] ≠ 0x00 ∧ e = .invalidEndByte B[24]) := by
  constructor
  · intro hr
    obtain ⟨h0, hstart⟩ | ⟨h0, h24, hend⟩ | ⟨-, hok⟩ := decodeFrame_marker_cases B
    · exact .inl ⟨h0, DecodeResult.err.inj (hr.symm.trans hstart)⟩
    · exact .inr ⟨h0, h24, DecodeResult.err.inj (hr.symm.trans hend)⟩
    · nomatch hr.symm.trans hok
  · rintro (⟨h0, rfl⟩ | ⟨h0, h24, rfl⟩)
    · exact decodeFrame_of_start_ne h0
    · exact decodeFrame_of_end_ne h0 h24

end Sys2Proof.Machine
end

section
/-! CLAIMS. The obligations on the format errors (spec/60_exceptions.md). -/

namespace Sys2Proof.Proofs

open Sys2Proof.Machine

/-- Settles O13: an error result exactly in the two cases of a wrong marker; ENCODE always completes. -/
theorem formatErrorsAreExactlyTwo : Obligations.FormatErrorsAreExactlyTwo :=
  ⟨fun b s => ⟨decodeFrame b, exec_decode b s, decodeFrame_eq_err_iff b⟩,
    fun f s => ⟨encodeFrame f, exec_encode f s⟩⟩

/-- Settles O14: the start case asks nothing of byte 24, and the second frame has the same wrong byte 0. -/
theorem startErrorHasPriority : Obligations.StartErrorHasPriority := by
  intro b b' s h0 _ hsame
  have hb' := decodeReportsWrongStartByte b' s (hsame ▸ h0)
  rw [hsame] at hb'
  exact ⟨decodeReportsWrongStartByte b s h0, hb'⟩

end Sys2Proof.Proofs
end

section
/-! SUPPORT. Wire frames with the reserved bits cleared, and ENCODE of what DECODE extracts (spec/42_codec_laws.md). -/

namespace Sys2Proof.Machine

/-- R46: a byte keeps its value under the mask 0xF0 exactly when its reserved bits are 0. -/
theorem and_high_eq_self_iff (v : Byte) : v &&& 0xF0 = v ↔ v &&& 0x0F = 0 := by
  revert v
  decide

/-- Clearing the reserved bits leaves every byte but the flag byte. -/
theorem canon_getElem_of_ne (B : Frame25) {j : Nat} (hj : j < 25) (h : 23 ≠ j) : (Frame25.canon B)[j] = B[j] :=
  Vector.getElem_set_ne _ _ h

theorem canon_getElem_flagByte (B : Frame25) : (Frame25.canon B)[23] = B[23] &&& 0xF0 :=
  Vector.getElem_set_self _

/-- Clearing the reserved bits changes nothing exactly when they are 0. -/
theorem canon_eq_self_iff (B : Frame25) : Frame25.canon B = B ↔ B[23] &&& 0x0F = 0 := by
  rw [← and_high_eq_self_iff]
  refine ⟨fun h => ?_, fun h => ?_⟩
  · rw [← canon_getElem_flagByte, h]
  · rw [Frame25.canon, h, Vector.set_getElem_self]

/-- R46: the canonical frames are the valid ones in which there is nothing to clear. -/
theorem canonical_iff_canon_eq_self (B : Frame25) : Frame25.Canonical B ↔ Frame25.Valid B ∧ Frame25.canon B = B := by
  rw [canon_eq_self_iff, Frame25.Canonical]

/-- R68: DECODE does not see the reserved bits. -/
theorem decodeFrame_canon (B : Frame25) : decodeFrame (Frame25.canon B) = decodeFrame B :=
  decodeFrame_set_flagByte (flagsOf_and_high B[23])

/-- R46: ENCODE's result is canonical. -/
theorem encodeFrame_canonical (f : Frame) : Frame25.Canonical (encodeFrame f) := by
  refine ⟨⟨encodeFrame_start f, encodeFrame_end f⟩, BitVec.eq_of_toNat_eq ?_⟩
  rw [BitVec.toNat_and, encodeFrame_flags_toNat]
  exact (Nat.and_two_pow_sub_one_eq_mod _ 4).trans (flagByte_lt f.flags).2

/-- R26, R64: ENCODE puts an extracted channel bit back where DECODE took it from. -/
theorem byteAt_encodeFrame_extractFrame (B : Frame25) {j : Nat} (h1 : 1 ≤ j) (h22 : j ≤ 22) :
    byteAt (encodeFrame (extractFrame B)) j = byteAt B j := by
  refine BitVec.eq_of_getLsbD_eq fun k hk => ?_
  obtain ⟨s, hs, hj, hks⟩ : ∃ s, s < 176 ∧ j = 1 + s / 8 ∧ k = s % 8 := ⟨8 * (j - 1) + k, by omega, by omega, by omega⟩
  rw [hj, hks, encodeFrame_payload_bit _ hs, extractFrame_bit _ _ (by omega), decide_eq_true (by omega), Bool.true_and,
    Nat.div_add_mod]

/-- The law of re-encoding: ENCODE of what DECODE extracts is the frame with the reserved bits cleared. -/
theorem encodeFrame_extractFrame {B : Frame25} (hB : Frame25.Valid B) :
    encodeFrame (extractFrame B) = Frame25.canon B := by
  obtain ⟨h0, h24⟩ := hB
  refine Vector.ext fun j hj => ?_
  by_cases e23 : j = 23
  · subst e23
    rw [encodeFrame_flags, extractFrame_flags, flagByte_flagsOf, canon_getElem_flagByte]
  rw [canon_getElem_of_ne B hj (Ne.symm e23)]
  by_cases e0 : j = 0
  · subst e0
    rw [encodeFrame_start, h0]
  by_cases e24 : j = 24
  · subst e24
    rw [encodeFrame_end, h24]
  rw [← byteAt_of_lt _ hj, ← byteAt_of_lt _ hj, byteAt_encodeFrame_extractFrame B (by omega) (by omega)]

/-- R52: masking a Frame first changes nothing of what ENCODE makes of it. -/
theorem encodeFrame_mask (f : Frame) : encodeFrame f.mask = encodeFrame f := by
  obtain ⟨hvalid, hcanon⟩ := (canonical_iff_canon_eq_self _).mp (encodeFrame_canonical f)
  rw [← extractFrame_encodeFrame, encodeFrame_extractFrame hvalid, hcanon]

/-- R75: ENCODE identifies exactly the Frames with equal masks; DECODE recovers the mask from the bytes. -/
theorem encodeFrame_eq_iff (f g : Frame) : encodeFrame f = encodeFrame g ↔ f.mask = g.mask := by
  refine ⟨fun h => ?_, fun h => ?_⟩
  · rw [← extractFrame_encodeFrame, h, extractFrame_encodeFrame]
  · rw [← encodeFrame_mask, h, encodeFrame_mask]

/-- R79: ENCODE reaches exactly the canonical frames, each from its extracted Frame. -/
theorem exists_encodeFrame_eq_iff (B : Frame25) : (∃ f, encodeFrame f = B) ↔ Frame25.Canonical B := by
  refine ⟨fun ⟨f, hf⟩ => hf ▸ encodeFrame_canonical f, fun hB => ?_⟩
  obtain ⟨hvalid, hcanon⟩ := (canonical_iff_canon_eq_self B).mp hB
  exact ⟨extractFrame B, (encodeFrame_extractFrame hvalid).trans hcanon⟩

/-- R80: DECODE identifies exactly the valid frames that agree with the reserved bits cleared. -/
theorem extractFrame_eq_iff {A B : Frame25} (hA : Frame25.Valid A) (hB : Frame25.Valid B) :
    extractFrame A = extractFrame B ↔ Frame25.canon A = Frame25.canon B := by
  refine ⟨fun h => ?_, fun h => ?_⟩
  · rw [← encodeFrame_extractFrame hA, h, encodeFrame_extractFrame hB]
  · refine eq_extractFrame_of_decodeFrame_ok ?_
    rw [← decodeFrame_canon, ← h, decodeFrame_canon, decodeFrame_of_markers hA.1 hA.2]

/-- R71: DECODE of a valid frame completes with the extracted Frame. -/
theorem exec_decode_of_valid {b : Frame25} (s : State) (hb : Frame25.Valid b) :
    exec (.decode b) s = .next (s.presentDec b (.ok (extractFrame b))) :=
  exec_decode_of_eq s (decodeFrame_of_markers hb.1 hb.2)

/-- R51: ENCODE completes, only ENC's ports change, and they show its result. -/
theorem exec_encode_of_eq {f : Frame} {out : Frame25} (s : State) (h : encodeFrame f = out) :
    exec (.encode f) s = .next (s.presentEnc f out) := by
  rw [exec_encode, h]

end Sys2Proof.Machine
end

section
/-! CLAIMS. The obligations on re-encoding, masking and equal frames (spec/42_codec_laws.md). -/

namespace Sys2Proof.Proofs

open Sys2Proof.Machine

/-- Settles O28: the law of re-encoding, after DECODE's extraction. -/
theorem reencodingGivesCanonicalFrame : Obligations.ReencodingGivesCanonicalFrame := fun b s hb =>
  ⟨extractFrame b, exec_decode_of_valid s hb,
    exec_encode_of_eq (s.presentDec b (.ok (extractFrame b))) (encodeFrame_extractFrame hb), canon_eq_self_iff b⟩

/-- Settles O27: masking first changes nothing, and equal results have equal masks. -/
theorem equalWireFramesIffEqualMasks : Obligations.EqualWireFramesIffEqualMasks := fun f g s =>
  ⟨encodeFrame f, encodeFrame g, exec_encode f s, exec_encode g s, exec_encode_of_eq s (encodeFrame_mask f),
    encodeFrame_eq_iff f g⟩

/-- Settles O29: an evaluation of ENCODE shows `b` exactly when `b` is ENCODE's result, which some Frame has when `b` is
canonical. -/
theorem imageOfEncodeIsCanonical : Obligations.ImageOfEncodeIsCanonical := by
  intro b s
  rw [← exists_encodeFrame_eq_iff]
  refine exists_congr fun f => ⟨fun h => ?_, exec_encode_of_eq s⟩
  rw [exec_encode] at h
  have hout := congrArg State.encOut (Host.Outcome.next.inj h)
  simpa only [presentEnc_encOut] using hout

/-- Settles O30: equal extracted Frames, and a Frame in range reached from ENCODE's result for it. -/
theorem decodeEqualIffCanonEqual : Obligations.DecodeEqualIffCanonEqual := by
  refine ⟨fun b b' s hb hb' => ⟨extractFrame b, extractFrame b', exec_decode_of_valid s hb, exec_decode_of_valid s hb',
    extractFrame_eq_iff hb hb'⟩, fun f s hf => ⟨encodeFrame f, encodeFrame_canonical f, exec_decode_of_eq s ?_⟩⟩
  rw [decodeFrame_encodeFrame, frame_mask_of_inRange hf]

/-- Settles O31: the mask's bytes are the Frame's, and the frame with the reserved bits cleared is what its Frame encodes
to. -/
theorem normalisationIsIdempotent : Obligations.NormalisationIsIdempotent := by
  refine ⟨fun f s => ⟨encodeFrame f, exec_encode_of_eq s (encodeFrame_mask f),
    exec_decode_of_eq s (decodeFrame_encodeFrame f)⟩, fun b s hb => ⟨extractFrame b, exec_decode_of_valid s hb,
    exec_decode_of_eq s ?_, exec_encode_of_eq s (encodeFrame_extractFrame hb)⟩⟩
  rw [decodeFrame_canon, decodeFrame_of_markers hb.1 hb.2]

end Sys2Proof.Proofs
end

section
/-! SUPPORT. Steps and runs: what the decoder of requests reads, what a step keeps, and what a run leaves of its past. -/

namespace Sys2Proof.Machine

/-- A request read as an instruction is the one that asks for it: the lengths agree, so nothing is dropped. -/
theorem encodeRequest_of_decodeRequest {r : Request} {i : Instr} (h : decodeRequest r = .ok i) : encodeRequest i = r := by
  cases r with
  | enc chs fl =>
    by_cases hlen : chs.length = 16
    · rw [decodeRequest_enc fl hlen] at h
      cases h
      rfl
    · rw [decodeRequest_enc_rejected fl hlen] at h
      nomatch h
  | dec bs =>
    by_cases hlen : bs.length = 25
    · rw [decodeRequest_dec hlen] at h
      cases h
      rfl
    · rw [decodeRequest_dec_rejected hlen] at h
      nomatch h

/-- R107: the request that asks for an instruction is read as it. -/
theorem decodeRequest_encodeRequest (i : Instr) : decodeRequest (encodeRequest i) = .ok i := by
  cases i with
  | encode f => exact Laws.RequestRoundTrip.encode f
  | decode b => exact Laws.RequestRoundTrip.decode b

/-- R10, R14: the requests that are no input of the block, each with the length it has. -/
theorem decodeRequest_eq_error_iff (r : Request) (e : Reject) :
    decodeRequest r = .error e ↔
      (∃ bs, r = .dec bs ∧ bs.length ≠ 25 ∧ e = .frameLength bs.length) ∨
      (∃ chs fl, r = .enc chs fl ∧ chs.length ≠ 16 ∧ e = .channelCount chs.length) := by
  constructor
  · intro h
    cases r with
    | enc chs fl =>
      by_cases hlen : chs.length = 16
      · rw [decodeRequest_enc fl hlen] at h
        nomatch h
      · rw [decodeRequest_enc_rejected fl hlen] at h
        exact .inr ⟨chs, fl, rfl, hlen, (Except.error.inj h).symm⟩
    | dec bs =>
      by_cases hlen : bs.length = 25
      · rw [decodeRequest_dec hlen] at h
        nomatch h
      · rw [decodeRequest_dec_rejected hlen] at h
        exact .inl ⟨bs, rfl, hlen, (Except.error.inj h).symm⟩
  · rintro (⟨bs, rfl, hlen, rfl⟩ | ⟨chs, fl, rfl, hlen, rfl⟩)
    · exact decodeRequest_dec_rejected hlen
    · exact decodeRequest_enc_rejected fl hlen

/-- R37: an evaluation answers a next state, with the caller's list as it was. -/
theorem exec_next (i : Instr) (s : State) : ∃ t, exec i s = .next t ∧ t.pending = s.pending := by
  cases i with
  | encode f => exact ⟨_, exec_encode f s, rfl⟩
  | decode b => exact ⟨_, exec_decode b s, rfl⟩

/-- A step is refused exactly when the next request is read as no instruction. -/
theorem step_eq_refused_iff (s : State) (q : Refusal) :
    step s = .refused q ↔ ∃ r rs e, s.pending = r :: rs ∧ decodeRequest r = .error e ∧ q = refusalOf e := by
  refine ⟨fun h => ?_, fun ⟨r, rs, e, hp, hr, hq⟩ => hq ▸ step_rejected hp hr⟩
  cases hp : s.pending with
  | nil => nomatch (step_idle hp).symm.trans h
  | cons r rs =>
    cases hr : decodeRequest r with
    | ok i =>
      obtain ⟨t, ht, -⟩ := exec_next i (s.setPending rs)
      nomatch ((step_ok hp hr).trans ht).symm.trans h
    | error e => exact ⟨r, rs, e, rfl, hr, Host.Outcome.refused.inj (h.symm.trans (step_rejected hp hr))⟩

/-- R37, R88: a step answers a next state or a refusal. -/
theorem step_next_or_refused (s : State) : (∃ t, step s = .next t) ∨ ∃ q, step s = .refused q := by
  cases hp : s.pending with
  | nil => exact .inl ⟨s, step_idle hp⟩
  | cons r rs =>
    cases hr : decodeRequest r with
    | ok i =>
      obtain ⟨t, ht, -⟩ := exec_next i (s.setPending rs)
      exact .inl ⟨t, (step_ok hp hr).trans ht⟩
    | error e => exact .inr ⟨_, step_rejected hp hr⟩

/-- R15, R62, R63, R67: what DECODE answers is legal. -/
theorem decodeFrame_legal (B : Frame25) : (decodeFrame B).Legal := by
  obtain ⟨h0, hr⟩ | ⟨-, h24, hr⟩ | ⟨-, hr⟩ := decodeFrame_marker_cases B
  · rw [hr]
    exact h0
  · rw [hr]
    exact h24
  · rw [hr]
    exact fun i => extractFrame_le B i.isLt

/-- Outputs that are functions of the inputs are legal, whatever the inputs. -/
theorem outputsLegal_of_coherent {s : State} (h : Coherent s) : OutputsLegal s := by
  obtain ⟨henc, hdec⟩ := h
  refine ⟨?_, ?_⟩
  · rw [henc]
    exact encodeFrame_canonical s.encIn
  · rw [hdec]
    exact decodeFrame_legal s.decIn

/-- What DEC was given and showed. -/
def State.decView (s : State) : Frame25 × DecodeResult := (s.decIn, s.decResult)

/-- What ENC was given and showed. -/
def State.encView (s : State) : Frame × Frame25 := (s.encIn, s.encOut)

section Run

variable {α : Type} {view : State → α}

/-- A run of some steps more is the first steps and then the run. -/
theorem run_add {s t : State} {m : Nat} (n : Nat) (h : core.run m s = .next t) : core.run (m + n) s = core.run n t := by
  induction m generalizing s with
  | zero =>
    rw [run_zero] at h
    rw [Nat.zero_add, Host.Outcome.next.inj h]
  | succ m ih =>
    obtain ⟨u, hu⟩ | ⟨q, hq⟩ := step_next_or_refused s
    · rw [run_succ m hu] at h
      rw [Nat.add_right_comm, run_succ (m + n) hu, ih h]
    · have hq' : core.step s = .refused q := hq
      simp only [Host.Core.run, hq'] at h
      nomatch h

/-- An asked for evaluation is made by the next step, which takes its request off the list. -/
theorem step_encodeRequest {s : State} {i : Instr} {rs : List Request} (h : s.pending = encodeRequest i :: rs) :
    step s = exec i (s.setPending rs) :=
  step_ok h (decodeRequest_encodeRequest i)

/-- A list of evaluations runs to its end, and what each of them keeps, whatever the caller's list, all of them keep. -/
theorem run_keeps_view (hview : ∀ s rs, view (s.setPending rs) = view s) {is : List Instr} {rs : List Request}
    {s : State} (hkeep : ∀ i ∈ is, ∀ s t, exec i s = .next t → view t = view s)
    (h : s.pending = is.map encodeRequest ++ rs) :
    ∃ t, core.run is.length s = .next t ∧ t.pending = rs ∧ view t = view s := by
  induction is generalizing s with
  | nil => exact ⟨s, run_zero s, h, rfl⟩
  | cons i is ih =>
    obtain ⟨u, hu, hpu⟩ := exec_next i (s.setPending (is.map encodeRequest ++ rs))
    obtain ⟨t, ht, hpt, hvt⟩ := ih (fun j hj => hkeep j (List.mem_cons_of_mem i hj)) hpu
    refine ⟨t, ?_, hpt, ?_⟩
    · rw [List.length_cons, run_succ _ ((step_encodeRequest h).trans hu), ht]
    · rw [hvt, hkeep i List.mem_cons_self _ _ hu, hview]

/-- A run of evaluations leaves in a view what the last evaluation that sets the view sets there, if those after it keep
it: the evaluations before it, and the state they began from, are forgotten. -/
theorem run_remembers_last (hview : ∀ s rs, view (s.setPending rs) = view s) {before after : List Instr} {i : Instr}
    {a : α} {s : State} (hset : ∀ s t, exec i s = .next t → view t = a)
    (hkeep : ∀ j ∈ after, ∀ s t, exec j s = .next t → view t = view s)
    (h : s.pending = (before ++ i :: after).map encodeRequest) :
    ∃ t, core.run (before.length + 1 + after.length) s = .next t ∧ view t = a ∧ t.pending = [] := by
  rw [List.map_append, List.map_cons] at h
  obtain ⟨u, hu, hpu, -⟩ := run_keeps_view (view := fun _ => ()) (fun _ _ => rfl) (fun _ _ _ _ _ => rfl) h
  obtain ⟨v, hv, hpv⟩ := exec_next i (u.setPending (after.map encodeRequest))
  obtain ⟨t, ht, hpt, hvt⟩ := run_keeps_view hview (rs := []) hkeep (hpv.trans (List.append_nil _).symm)
  refine ⟨t, ?_, hvt.trans (hset _ _ hv), hpt⟩
  rw [Nat.add_assoc, run_add _ hu, Nat.add_comm 1, run_succ _ ((step_encodeRequest hpu).trans hv), ht]

end Run

theorem exec_decode_decView {b : Frame25} {s t : State} (h : exec (.decode b) s = .next t) :
    t.decView = (b, decodeFrame b) := by
  rw [← Host.Outcome.next.inj h]
  rfl

theorem exec_encode_decView {f : Frame} {s t : State} (h : exec (.encode f) s = .next t) : t.decView = s.decView := by
  rw [← Host.Outcome.next.inj h]
  rfl

theorem exec_encode_encView {f : Frame} {s t : State} (h : exec (.encode f) s = .next t) :
    t.encView = (f, encodeFrame f) := by
  rw [← Host.Outcome.next.inj h]
  rfl

theorem exec_decode_encView {b : Frame25} {s t : State} (h : exec (.decode b) s = .next t) : t.encView = s.encView := by
  rw [← Host.Outcome.next.inj h]
  rfl

end Sys2Proof.Machine
end

section
/-! CLAIMS. The obligations on steps, runs and the reset state. -/

namespace Sys2Proof.Proofs

open Sys2Proof.Machine

/-- Settles O37: an evaluation drives its unit's output with the function of its input and leaves the other unit alone. -/
theorem stepKeepsPortsCoherent : Obligations.StepKeepsPortsCoherent := by
  intro s t ⟨henc, hdec⟩ h
  obtain ⟨-, rfl⟩ | ⟨r, rs, f, -, -, rfl⟩ | ⟨r, rs, b, -, -, rfl⟩ := step_next_cases h
  · exact ⟨henc, hdec⟩
  · exact ⟨rfl, hdec⟩
  · exact ⟨henc, rfl⟩

/-- Settles O38: ENCODE's result is canonical and DECODE's legal, and each leaves the other unit alone. -/
theorem stepKeepsOutputsLegal : Obligations.StepKeepsOutputsLegal := by
  intro s t ⟨henc, hdec⟩ h
  obtain ⟨-, rfl⟩ | ⟨r, rs, f, -, -, rfl⟩ | ⟨r, rs, b, -, -, rfl⟩ := step_next_cases h
  · exact ⟨henc, hdec⟩
  · exact ⟨encodeFrame_canonical f, hdec⟩
  · exact ⟨henc, decodeFrame_legal b⟩

/-- Settles O49: an evaluation leaves the ports of the other unit, and it is of the unit that the request was for. -/
theorem stepKeepsTheUnitNotUsed : Obligations.StepKeepsTheUnitNotUsed := by
  intro s t h
  obtain ⟨-, rfl⟩ | ⟨r, rs, f, hp, hr, rfl⟩ | ⟨r, rs, b, hp, hr, rfl⟩ := step_next_cases h
  · exact ⟨fun _ => ⟨rfl, rfl⟩, fun _ => ⟨rfl, rfl⟩⟩
  · refine ⟨fun _ => ⟨rfl, rfl⟩, fun hfor => ?_⟩
    rw [← encodeRequest_of_decodeRequest hr] at hp
    obtain h' | ⟨bs, rs', h'⟩ := hfor
    · nomatch hp.symm.trans h'
    · nomatch hp.symm.trans h'
  · refine ⟨fun hfor => ?_, fun _ => ⟨rfl, rfl⟩⟩
    rw [← encodeRequest_of_decodeRequest hr] at hp
    obtain h' | ⟨chs, fl, rs', h'⟩ := hfor
    · nomatch hp.symm.trans h'
    · nomatch hp.symm.trans h'

/-- Settles O40: a step is refused exactly when the next request is rejected, and a rejected request is one of the two. -/
theorem stepStopsOnlyOnNonInputs : Obligations.StepStopsOnlyOnNonInputs := by
  refine fun s => ⟨fun q => ?_, step_next_or_refused s⟩
  simp only [step_eq_refused_iff, decodeRequest_eq_error_iff]
  constructor
  · rintro ⟨r, rs, e, hp, ⟨bs, rfl, hlen, rfl⟩ | ⟨chs, fl, rfl, hlen, rfl⟩, rfl⟩
    · exact .inl ⟨bs, rs, hp, hlen, rfl⟩
    · exact .inr ⟨chs, fl, rs, hp, hlen, rfl⟩
  · rintro (⟨bs, rs, hp, hlen, rfl⟩ | ⟨chs, fl, rs, hp, hlen, rfl⟩)
    · exact ⟨_, rs, _, hp, .inl ⟨bs, rfl, hlen, rfl⟩, rfl⟩
    · exact ⟨_, rs, _, hp, .inr ⟨chs, fl, rfl, hlen, rfl⟩, rfl⟩

/-- Settles O43: DEC's ports are set by the last DECODE and kept by the ENCODEs after it, and likewise ENC's. -/
theorem runsRememberOnlyTheLastOperand : Obligations.RunsRememberOnlyTheLastOperand := by
  refine ⟨fun s z before after b hafter hp => ?_, fun s z before after f hafter hp => ?_⟩
  · have hkeep : ∀ j ∈ after, ∀ s t, exec j s = .next t → t.decView = s.decView := by
      intro j hj s t ht
      obtain ⟨f, rfl⟩ := hafter j hj
      exact exec_encode_decView ht
    obtain ⟨t, ht, hv, hpt⟩ := run_remembers_last (fun _ _ => rfl) (fun _ _ => exec_decode_decView) hkeep hp
    obtain ⟨hin, hres⟩ := Prod.mk.inj hv
    exact ⟨t, _, ht, exec_decode b z, hin, hres, hpt⟩
  · have hkeep : ∀ j ∈ after, ∀ s t, exec j s = .next t → t.encView = s.encView := by
      intro j hj s t ht
      obtain ⟨b, rfl⟩ := hafter j hj
      exact exec_decode_encView ht
    obtain ⟨t, ht, hv, hpt⟩ := run_remembers_last (fun _ _ => rfl) (fun _ _ => exec_encode_encView) hkeep hp
    obtain ⟨hin, hout⟩ := Prod.mk.inj hv
    exact ⟨t, _, ht, exec_encode f z, hin, hout, hpt⟩

/-- Settles O46: the lengths of a request that is read are those of the operand. -/
theorem decodedRequestIsRecovered : Obligations.DecodedRequestIsRecovered := fun _ _ => encodeRequest_of_decodeRequest

/-- Settles O36: the outputs at reset are the functions of the zero inputs, and such outputs are legal. -/
theorem resetMeetsInvariants : Obligations.ResetMeetsInvariants := by
  have hcoh : Coherent State.reset := ⟨by decide, by decide⟩
  exact ⟨hcoh, outputsLegal_of_coherent hcoh⟩

/-- Settles O35: the reset state's fields, and on DEC's ports the image of a wrong start byte. -/
theorem resetShowsZeroInputs : Obligations.ResetShowsZeroInputs :=
  ⟨by decide, rfl, by decide, by decide, rfl, rfl, by decide, rfl, rfl, rfl, rfl, rfl⟩

/-- Settles O39: the step on a request that is read, and the idle step. -/
theorem stepRunsRequestedEvaluation : Obligations.StepRunsRequestedEvaluation :=
  ⟨fun _ _ _ _ => step_ok, fun _ => step_idle⟩

/-- Settles O41: both arms of exec answer a next state and drive the ports of one unit only. -/
theorem evaluationsNeverStall : Obligations.EvaluationsNeverStall := exec_next

/-- Settles O8: ENCODE's result is a function of the operand alone, from any state. -/
theorem encodeIsPure : Obligations.EncodeIsPure := fun f s s' =>
  ⟨encodeFrame f, exec_encode f s, exec_encode f s', exec_encode f (s.presentEnc f (encodeFrame f))⟩

/-- Settles O42: each unit's result is a function of its own operand, and each evaluation drives its own ports. -/
theorem unitsCommute : Obligations.UnitsCommute := fun f b s =>
  ⟨encodeFrame f, decodeFrame b, exec_encode f s, exec_decode b s, exec_decode b (s.presentEnc f (encodeFrame f)),
    exec_encode f (s.presentDec b (decodeFrame b))⟩

end Sys2Proof.Proofs
end

section
/-! SUPPORT. The 200-bit view byte by byte, the table's masks and the ENCODE row's number (spec/30_encoding.md). -/

namespace Sys2Proof.Machine

/-- 00_scope.md section 5.2: `B[j] = F[8*j+7 : 8*j]`. -/
theorem toVector_extract_byte (B : Frame25) {j : Nat} (hj : j < 25) : (toVector B).extractLsb' (8 * j) 8 = B[j] := by
  have hbyte : (bytesOfVector (toVector B))[j]'(by simpa [bytesOfVector] using hj) = B.toList[j]'(by simpa using hj) := by
    simp only [bytesOfVector_toVector]
  simpa only [bytesOfVector, List.getElem_map, List.getElem_range, Vector.getElem_toList] using hbyte

/-- Two 200-bit words with equal bytes are equal. -/
theorem eq_of_extract_bytes_eq {F G : BitVec 200}
    (h : ∀ j : Fin 25, F.extractLsb' (8 * j.val) 8 = G.extractLsb' (8 * j.val) 8) : F = G := by
  refine BitVec.eq_of_getLsbD_eq fun n hn => ?_
  have hbit := congrArg (·.getLsbD (n % 8)) (h ⟨n / 8, by omega⟩)
  simpa only [BitVec.getLsbD_extractLsb', Nat.div_add_mod, show n % 8 < 8 by omega, decide_true, Bool.true_and] using hbit

/-- A comparison under a mask is one of every byte under the mask's byte. -/
theorem toVector_and_eq_iff (B : Frame25) (M N : BitVec 200) :
    toVector B &&& M = N ↔
      ∀ j : Fin 25, B[j] &&& M.extractLsb' (8 * j.val) 8 = N.extractLsb' (8 * j.val) 8 := by
  have hbyte (j : Fin 25) : (toVector B &&& M).extractLsb' (8 * j.val) 8 = B[j] &&& M.extractLsb' (8 * j.val) 8 := by
    rw [BitVec.extractLsb'_and, toVector_extract_byte B j.isLt, Fin.getElem_fin]
  refine ⟨fun h j => ?_, fun h => eq_of_extract_bytes_eq fun j => ?_⟩
  · rw [← hbyte, h]
  · rw [hbyte, h]

/-- Bytes that are 0 in the mask and in the value compared with need no look. -/
theorem toVector_and_eq_iff_on (B : Frame25) {M N : BitVec 200} (S : List (Fin 25))
    (hzero : ∀ j ∉ S, M.extractLsb' (8 * j.val) 8 = 0#8 ∧ N.extractLsb' (8 * j.val) 8 = 0#8) :
    toVector B &&& M = N ↔ ∀ j ∈ S, B[j] &&& M.extractLsb' (8 * j.val) 8 = N.extractLsb' (8 * j.val) 8 := by
  rw [toVector_and_eq_iff]
  refine ⟨fun h j _ => h j, fun h j => ?_⟩
  by_cases hj : j ∈ S
  · exact h j hj
  · obtain ⟨hM, hN⟩ := hzero j hj
    rw [hM, hN, BitVec.and_zero]

theorem and_ff_eq (v : Byte) : v &&& 0xff = v := BitVec.and_allOnes

/-- R45: MASK selects the two markers and MATCH is their values. -/
theorem valid_iff_mask (B : Frame25) :
    Frame25.Valid B ↔ toVector B &&& 0xff0000000000000000000000000000000000000000000000ff = 0x0f := by
  rw [toVector_and_eq_iff_on B [0, 24] (by decide), List.forall_mem_cons, List.forall_mem_singleton, Frame25.Valid]
  refine and_congr ?_ ?_
  · show B[0] = 0x0f ↔ B[0] &&& 0xff = 0x0f
    rw [and_ff_eq]
  · show B[24] = 0x00 ↔ B[24] &&& 0xff = 0x00
    rw [and_ff_eq]

/-- R46: CMASK selects the two markers and the reserved bits. -/
theorem canonical_iff_mask (B : Frame25) :
    Frame25.Canonical B ↔ toVector B &&& Config.canonicalMask = Config.markerMatch := by
  rw [toVector_and_eq_iff_on B [0, 24, 23] (by decide), List.forall_mem_cons, List.forall_mem_cons,
    List.forall_mem_singleton, ← and_assoc, Frame25.Canonical, Frame25.Valid]
  refine and_congr (and_congr ?_ ?_) Iff.rfl
  · show B[0] = 0x0f ↔ B[0] &&& 0xff = 0x0f
    rw [and_ff_eq]
  · show B[24] = 0x00 ↔ B[24] &&& 0xff = 0x00
    rw [and_ff_eq]

theorem matchesEncodeRow_iff_canonical (B : Frame25) : matchesEncodeRow (toVector B) = true ↔ Frame25.Canonical B := by
  rw [canonical_iff_mask, matchesEncodeRow, beq_iff_eq]

/-- The operand of a well-formed ENCODE is in range. -/
theorem inRange_of_wellFormed {f : Frame} (h : Instr.wellFormed (.encode f) = true) : f.InRange := by
  intro i
  have hfits := List.all_eq_true.mp h f.ch[i] (Vector.mem_toList_iff.mpr (Vector.getElem_mem i.isLt))
  exact of_decide_eq_true hfits

/-- R51: the stream of a Frame in range is the sum of its channels, each at its position. -/
theorem packChannels_eq_sum {f : Frame} (h : f.InRange) :
    packChannels f.ch = ∑ i : Fin 16, f.ch[i].toNat * 2 ^ (11 * i.val) := by
  have hmask (i : Fin 16) : maskChannel f.ch[i] = f.ch[i].toNat := by
    rw [maskChannel_eq_mod, Nat.mod_eq_of_lt (Nat.lt_succ_of_le (h i))]
  rw [packChannels, ← Finset.sum_congr rfl fun i _ => congrArg (· * 2 ^ (11 * i.val)) (hmask i)]
  exact foldl_or_fields_eq_sum 11 16 (fun i => maskChannel f.ch[i]) fun i => Nat.and_lt_two_pow _ (by decide)

theorem packChannels_lt (ch : Channels) : packChannels ch < 2 ^ 176 := by
  refine Nat.lt_pow_two_of_testBit _ fun s hs => ?_
  rw [packChannels_testBit, dif_neg (by omega)]

/-- R55: the flag byte is the sum of its flags, each at its position. -/
theorem flagByte_eq_sum (fl : Flags) :
    flagByte fl = fl.failsafe.toNat * 2 ^ 4 + fl.framelost.toNat * 2 ^ 5 + fl.ch18.toNat * 2 ^ 6 + fl.ch17.toNat * 2 ^ 7 := by
  obtain ⟨a, b, c, d⟩ := fl
  revert a b c d
  decide

/-- R51: the parts of ENCODE's result do not overlap, so that their OR is their sum. -/
theorem toVector_encodeFrame_eq_sum (f : Frame) :
    (toVector (encodeFrame f)).toNat = 0x0F + packChannels f.ch * 2 ^ 8 + flagByte f.flags * 2 ^ 184 := by
  have hS := packChannels_lt f.ch
  have hlow : 0x0F ||| packChannels f.ch <<< 8 = packChannels f.ch * 2 ^ 8 + 0x0F := by
    rw [Nat.or_comm, ← Nat.shiftLeft_add_eq_or_of_lt (by decide), Nat.shiftLeft_eq]
  rw [toVector_encodeFrame_toNat, hlow, Nat.or_comm, ← Nat.shiftLeft_add_eq_or_of_lt (by omega), Nat.shiftLeft_eq]
  ring

/-- The channel part of the ENCODE row's word is the stream above the start marker. -/
theorem encodeRowWord_channels (f : Frame) :
    ((List.range 16).map fun i => (f.ch.toList.getD i 0).toNat * 2 ^ (8 + 11 * i)).sum =
      (∑ i : Fin 16, f.ch[i].toNat * 2 ^ (11 * i.val)) * 2 ^ 8 := by
  have hrange : ((List.range 16).map fun i => (f.ch.toList.getD i 0).toNat * 2 ^ (8 + 11 * i)).sum =
      ∑ i ∈ Finset.range 16, (f.ch.toList.getD i 0).toNat * 2 ^ (8 + 11 * i) := rfl
  rw [hrange, Finset.sum_range, Finset.sum_mul]
  refine Finset.sum_congr rfl fun i _ => ?_
  rw [List.getD_eq_getElem _ _ (by simp), Vector.getElem_toList, pow_add]
  exact (mul_assoc _ _ _).symm.trans (mul_right_comm _ _ _)

/-- R47: the ENCODE row's word of an operand that fits its fields is ENCODE's result as a number. -/
theorem encodeTableWord_encode {f : Frame} (h : f.InRange) :
    encodeTableWord (.encode f) = (toVector (encodeFrame f)).toNat := by
  rw [toVector_encodeFrame_eq_sum, packChannels_eq_sum h, ← encodeRowWord_channels, flagByte_eq_sum, encodeTableWord,
    encodeRowWord]
  ring

/-- The word of a frame is read as ENCODE of its fields when the frame is canonical. -/
theorem decodeTableWord_of_canonical {B : Frame25} (h : Frame25.Canonical B) :
    decodeTableWord 200 (toVector B).toNat = some (.encode (extractFrame B)) := by
  have hreq := decodeRequest_encodeRequest (.encode (extractFrame B))
  rw [encodeRequest] at hreq
  rw [decodeTableWord, tableRequest_toVector, if_pos ((matchesEncodeRow_iff_canonical B).mpr h), hreq]
  rfl

/-- The word of a frame is read as DECODE of the frame when it is not canonical. -/
theorem decodeTableWord_of_not_canonical {B : Frame25} (h : ¬ Frame25.Canonical B) :
    decodeTableWord 200 (toVector B).toNat = some (.decode B) := by
  have hreq := decodeRequest_encodeRequest (.decode B)
  rw [encodeRequest] at hreq
  rw [decodeTableWord, tableRequest_toVector, if_neg (mt (matchesEncodeRow_iff_canonical B).mp h), hreq]
  rfl

/-- A table word that is read as an instruction stands for a request that is read as it. -/
theorem decodeRequest_tableRequest {nbits w : Nat} {i : Instr} (h : decodeTableWord nbits w = some i) :
    decodeRequest (tableRequest nbits w) = .ok i := by
  rw [decodeTableWord] at h
  cases hr : decodeRequest (tableRequest nbits w) with
  | ok j =>
    rw [hr] at h
    exact congrArg Except.ok (Option.some.inj h)
  | error e =>
    rw [hr] at h
    nomatch h

end Sys2Proof.Machine
end

section
/-! CLAIMS. The obligations on the opcode table's words (spec/30_encoding.md). -/

namespace Sys2Proof.Proofs

open Sys2Proof.Machine

/-- Settles O44: a table word is the frame's number, and the frame is canonical or not; ENCODE's frames are canonical, and
extraction gives an operand in range back. -/
theorem tableWordsRoundTrip : Obligations.TableWordsRoundTrip := by
  refine ⟨fun f hf => ?_, fun b hb => ?_, fun b s hb => ⟨extractFrame b, exec_decode_of_valid s hb.1, ?_⟩⟩
  · have hrange := inRange_of_wellFormed hf
    rw [encodeTableWord_encode hrange, decodeTableWord_of_canonical (encodeFrame_canonical f), extractFrame_encodeFrame,
      frame_mask_of_inRange hrange]
  · rw [encodeTableWord, natOfBytes_toList, decodeTableWord_of_not_canonical hb]
  · rw [encodeTableWord, natOfBytes_toList, decodeTableWord_of_canonical hb]

/-- Settles O34: the masks byte by byte. -/
theorem masksDecideValidAndCanonical : Obligations.MasksDecideValidAndCanonical :=
  fun b => ⟨valid_iff_mask b, canonical_iff_mask b⟩

/-- Settles O45: the pattern's parts are the regions of ENCODE's result. -/
theorem encodeRowWordIsItsResult : Obligations.EncodeRowWordIsItsResult := fun f s hf =>
  ⟨encodeFrame f, exec_encode f s, encodeTableWord_encode (inRange_of_wellFormed hf)⟩

/-- Settles O47: the word's request is the next one, and taking it off gives the state it was placed in. -/
theorem placedTableWordRuns : Obligations.PlacedTableWordRuns := fun s nbits w _ h =>
  step_ok (request_pending s (tableRequest nbits w)) (decodeRequest_tableRequest h)

/-- Settles O48: four words, read by the model. -/
theorem sampleTableWordsDecode : Obligations.SampleTableWordsDecode :=
  ⟨by decide, by decide, by decide, by decide⟩

end Sys2Proof.Proofs
end

section
/-! SUPPORT. The 200-bit ports and the lanes of the frame (spec/42_codec_laws.md section 2, rules R41, R59 and R70). -/

namespace Sys2Proof.Machine

/-- The start marker's slice of the vector view. -/
theorem toVector_extract_start (B : Frame25) : (toVector B).extractLsb' 0 8 = B[0] :=
  toVector_extract_byte B (j := 0) (by decide)

/-- The end marker's slice of the vector view. -/
theorem toVector_extract_end (B : Frame25) : (toVector B).extractLsb' 192 8 = B[24] :=
  toVector_extract_byte B (j := 24) (by decide)

/-- A wire frame's bits are those of its vector view; past bit 199 both are 0. -/
theorem frame25_bit_eq_toVector (B : Frame25) (n : Nat) : Frame25.bit B n = (toVector B).getLsbD n := by
  rw [frame25_bit_eq, toVector_getLsbD]
  by_cases hn : n < 200
  · rw [decide_eq_true hn, Bool.true_and]
  · rw [byteAt_of_ge B (by omega), decide_eq_false hn, Bool.false_and]
    exact BitVec.getLsbD_zero

/-- R59: bit `184 + k` of ENCODE's result is bit `k` of the flag byte. -/
theorem encodeFrame_vector_flag_bit (f : Frame) {k : Nat} (hk : k < 8) :
    (toVector (encodeFrame f)).getLsbD (184 + k) = (flagByte f.flags).testBit k := by
  rw [encodeFrame_vector_bit, if_neg (by omega), dif_neg (by omega), if_pos (by omega), Nat.add_sub_cancel_left]

/-- R59: the reserved slice of ENCODE's result is 0. -/
theorem encodeFrame_reserved (f : Frame) : (toVector (encodeFrame f)).extractLsb' 184 4 = 0 := by
  refine BitVec.eq_of_getLsbD_eq fun k hk => ?_
  obtain ⟨hlow, -⟩ := flagByte_testBit f.flags
  rw [BitVec.getLsbD_extractLsb', encodeFrame_vector_flag_bit f (by omega), hlow k hk, Bool.and_false]
  exact BitVec.getLsbD_zero.symm

/-- R82: with channel `i` replaced, ENCODE's result keeps every bit outside that channel's field. -/
theorem encodeFrame_set_channel_bit (f : Frame) (i : Fin 16) (c : Channel) {n : Nat}
    (hn : n < 8 + 11 * i.val ∨ 8 + 11 * i.val + 10 < n) :
    (toVector (encodeFrame { f with ch := f.ch.set i.val c })).getLsbD n = (toVector (encodeFrame f)).getLsbD n := by
  rw [encodeFrame_vector_bit, encodeFrame_vector_bit]
  by_cases h8 : n < 8
  · rw [if_pos h8, if_pos h8]
  rw [if_neg h8, if_neg h8]
  by_cases h184 : n < 184
  · rw [dif_pos h184, dif_pos h184, Vector.getElem_set_ne _ _ (by omega)]
  · rw [dif_neg h184, dif_neg h184]

/-- R55: a bit of the flag byte depends on its own flag alone. -/
theorem flagByte_testBit_congr {a b : Flags} {k : Nat} (h7 : k = 7 → a.ch17 = b.ch17) (h6 : k = 6 → a.ch18 = b.ch18)
    (h5 : k = 5 → a.framelost = b.framelost) (h4 : k = 4 → a.failsafe = b.failsafe) :
    (flagByte a).testBit k = (flagByte b).testBit k := by
  obtain ⟨alow, a4, a5, a6, a7⟩ := flagByte_testBit a
  obtain ⟨blow, b4, b5, b6, b7⟩ := flagByte_testBit b
  obtain hk | rfl | rfl | rfl | rfl | hk : k < 4 ∨ k = 4 ∨ k = 5 ∨ k = 6 ∨ k = 7 ∨ 8 ≤ k := by omega
  · rw [alow k hk, blow k hk]
  · rw [a4, b4, h4 rfl]
  · rw [a5, b5, h5 rfl]
  · rw [a6, b6, h6 rfl]
  · rw [a7, b7, h7 rfl]
  · rw [flagByte_testBit_high a hk, flagByte_testBit_high b hk]

/-- R82: with other flags, ENCODE's result keeps every bit but those of the flags that differ. -/
theorem encodeFrame_set_flags_bit (f : Frame) (fl : Flags) {n : Nat} (h7 : n = 191 → fl.ch17 = f.flags.ch17)
    (h6 : n = 190 → fl.ch18 = f.flags.ch18) (h5 : n = 189 → fl.framelost = f.flags.framelost)
    (h4 : n = 188 → fl.failsafe = f.flags.failsafe) :
    (toVector (encodeFrame { f with flags := fl })).getLsbD n = (toVector (encodeFrame f)).getLsbD n := by
  have hflag : 184 ≤ n → (flagByte fl).testBit (n - 184) = (flagByte f.flags).testBit (n - 184) := fun hn =>
    flagByte_testBit_congr (fun h => h7 (by omega)) (fun h => h6 (by omega)) (fun h => h5 (by omega))
      (fun h => h4 (by omega))
  rw [encodeFrame_vector_bit, encodeFrame_vector_bit]
  rcases Nat.lt_or_ge n 184 with hn | hn
  · rw [dif_pos hn, dif_pos hn]
  · rw [dif_neg (by omega), dif_neg (by omega), hflag hn]

/-- R82: an extracted channel is made of the frame's bits at its own lane. -/
theorem extractFrame_ch_eq_of_lane {A B : Frame25} {i : Fin 16}
    (h : ∀ t : Fin 11, Frame25.bit A (8 + 11 * i.val + t.val) = Frame25.bit B (8 + 11 * i.val + t.val)) :
    (extractFrame A).ch[i] = (extractFrame B).ch[i] := by
  rw [extractFrame_ch_eq_slice, extractFrame_ch_eq_slice]
  refine congrArg _ (BitVec.eq_of_getLsbD_eq fun t ht => ?_)
  rw [BitVec.getLsbD_extractLsb', BitVec.getLsbD_extractLsb', ← frame25_bit_eq_toVector, ← frame25_bit_eq_toVector,
    h ⟨t, ht⟩]

/-- R66: the flag bits of a byte by their masks. -/
theorem getLsbD_eq_and_mask_ne_zero (v : Byte) :
    v.getLsbD 7 = decide (v &&& 0x80 ≠ 0) ∧ v.getLsbD 6 = decide (v &&& 0x40 ≠ 0) ∧
      v.getLsbD 5 = decide (v &&& 0x20 ≠ 0) ∧ v.getLsbD 4 = decide (v &&& 0x10 ≠ 0) := by
  revert v
  decide

/-- R45: the flag byte is no marker. -/
theorem valid_set_flagByte {B : Frame25} (v : Byte) (h : Frame25.Valid B) : Frame25.Valid (B.set 23 v) := by
  obtain ⟨h0, h24⟩ := h
  exact ⟨(Vector.getElem_set_ne _ _ (by decide)).trans h0, (Vector.getElem_set_ne _ _ (by decide)).trans h24⟩

/-- R70: on an error the frame outputs are 0. -/
theorem decPorts_of_err {t : State} {e : FrameFormatError} (h : t.decResult = .err e) :
    (∀ i : Fin 16, t.decCh i = 0x0000) ∧ t.decCh17 = false ∧ t.decCh18 = false ∧ t.decFramelost = false ∧
      t.decFailsafe = false := by
  obtain ⟨hch, h17, h18, hfl, hfs⟩ := portImage_err e
  rw [← h] at hch h17 h18 hfl hfs
  refine ⟨fun i => ?_, h17, h18, hfl, hfs⟩
  rw [State.decCh, State.decPorts, hch, zeroChannels]
  exact Vector.getElem_replicate _

/-- R59, R70: DEC's flag outputs and the flag bits of `dec_frame`. -/
theorem extractFrame_flags_eq_bits (B : Frame25) :
    (extractFrame B).flags =
      ⟨(toVector B).getLsbD 191, (toVector B).getLsbD 190, (toVector B).getLsbD 189, (toVector B).getLsbD 188⟩ := by
  rw [← flagFields_toVector, flagFields]

/-- The result that DEC's output ports show: the status tells the variant, the other ports hold its data (R70). -/
def resultOfPorts (p : DecPorts) : DecodeResult :=
  if p.status = 0 then .ok ⟨p.ch, ⟨p.ch17, p.ch18, p.framelost, p.failsafe⟩⟩
  else if p.status = 1 then .err (.invalidStartByte p.errByte)
  else .err (.invalidEndByte p.errByte)

/-- D5: the port image can be read back. -/
theorem resultOfPorts_portImage : Function.LeftInverse resultOfPorts portImage
  | .ok _ => rfl
  | .err (.invalidStartByte _) => rfl
  | .err (.invalidEndByte _) => rfl

/-- D5: the status codes in use. -/
theorem portImage_status_ne_three : ∀ r, (portImage r).status ≠ 3
  | .ok _ => show (0 : BitVec 2) ≠ 3 by decide
  | .err (.invalidStartByte _) => show (1 : BitVec 2) ≠ 3 by decide
  | .err (.invalidEndByte _) => show (2 : BitVec 2) ≠ 3 by decide

end Sys2Proof.Machine
end

section
/-! CLAIMS. The obligations on the ports, the lanes, the flags and the error results. -/

namespace Sys2Proof.Proofs

open Sys2Proof.Machine

/-- Settles O7: the regions of ENCODE's result as slices of `enc_frame`. -/
theorem encodePortsAreWiring : Obligations.EncodePortsAreWiring := by
  intro f s
  obtain ⟨-, h4, h5, h6, h7⟩ := flagByte_testBit f.flags
  have hflag {k : Nat} (hk : k < 8) := encodeFrame_vector_flag_bit f hk
  refine ⟨_, exec_encode f s, rfl, ?_, encodeFrame_channelField f, encodeFrame_reserved f,
    (hflag (k := 4) (by decide)).trans h4, (hflag (k := 5) (by decide)).trans h5,
    (hflag (k := 6) (by decide)).trans h6, (hflag (k := 7) (by decide)).trans h7, ?_, rfl, rfl, rfl⟩
  · rw [State.encFrame, presentEnc_encOut, toVector_extract_start, encodeFrame_start]
  · rw [State.encFrame, presentEnc_encOut, toVector_extract_end, encodeFrame_end]

/-- Settles O21: the image of DECODE's result in each of the three cases of the markers, which the end slices show. -/
theorem decodePortImage : Obligations.DecodePortImage := by
  intro b s
  refine ⟨_, exec_decode b s, rfl, rfl, rfl, rfl, ?_⟩
  simp only [State.decFrame, presentDec_decIn, toVector_extract_start, toVector_extract_end]
  obtain ⟨h0, hr⟩ | ⟨h0, h24, hr⟩ | ⟨⟨h0, h24⟩, hr⟩ := decodeFrame_marker_cases b
  · rw [hr]
    exact ⟨fun h => absurd h h0, fun _ => ⟨rfl, rfl⟩, fun h => absurd h h0, fun _ => decPorts_of_err rfl⟩
  · rw [hr]
    exact ⟨fun _ h => absurd h h24, fun h => absurd h0 h, fun _ _ => ⟨rfl, rfl⟩, fun _ => decPorts_of_err rfl⟩
  · rw [hr]
    obtain ⟨h17, h18, hfl, hfs⟩ := Flags.mk.inj (extractFrame_flags_eq_bits b)
    exact ⟨fun _ _ => ⟨rfl, rfl, extractFrame_ch_eq_slice b, h17, h18, hfl, hfs⟩, fun h => absurd h0 h,
      fun _ h => absurd h24 h, fun h => absurd ⟨h0, h24⟩ h⟩

/-- Settles O22: the three codes in use, and the ports read back. -/
theorem portImageIsFaithful : Obligations.PortImageIsFaithful :=
  ⟨portImage_status_ne_three, fun _ _ h => resultOfPorts_portImage.injective h⟩

/-- Settles O32: the bits of ENCODE's result that a channel and that the flags reach. -/
theorem encodeLanesAreIndependent : Obligations.EncodeLanesAreIndependent := by
  refine ⟨fun f i c s => ⟨_, _, exec_encode _ s, exec_encode _ s, fun n hn => ?_⟩,
    fun f fl s => ⟨_, _, exec_encode _ s, exec_encode _ s, fun n h7 h6 h5 h4 => ?_⟩⟩
  · rw [frame25_bit_eq_toVector, frame25_bit_eq_toVector, encodeFrame_set_channel_bit f i c hn]
  · rw [frame25_bit_eq_toVector, frame25_bit_eq_toVector, encodeFrame_set_flags_bit f fl h7 h6 h5 h4]

/-- Settles O33: an extracted channel is its lane. -/
theorem decodeLanesAreIndependent : Obligations.DecodeLanesAreIndependent := fun b b' _ s hb hb' hlane =>
  ⟨extractFrame b, extractFrame b', exec_decode_of_valid s hb, exec_decode_of_valid s hb', extractFrame_ch_eq_of_lane hlane⟩

/-- Settles O17: the extracted flags, their masks, and the channels with another flag byte. -/
theorem decodeReadsFlags : Obligations.DecodeReadsFlags := by
  intro b s hb
  have hbits : (extractFrame b).flags = ⟨b[23].getLsbD 7, b[23].getLsbD 6, b[23].getLsbD 5, b[23].getLsbD 4⟩ :=
    extractFrame_flags b
  obtain ⟨h17, h18, hfl, hfs⟩ := Flags.mk.inj hbits
  obtain ⟨m7, m6, m5, m4⟩ := getLsbD_eq_and_mask_ne_zero b[23]
  exact ⟨extractFrame b, exec_decode_of_valid s hb, ⟨h17, h18, hfl, hfs⟩,
    ⟨h17.trans m7, h18.trans m6, hfl.trans m5, hfs.trans m4⟩,
    fun v => ⟨_, exec_decode_of_valid s (valid_set_flagByte v hb), extractFrame_ch_set_flagByte b v⟩⟩

/-- Settles O24: the two error cases look at the wrong marker and the marker before it alone. -/
theorem errorResultsIgnorePayload : Obligations.ErrorResultsIgnorePayload := by
  intro b b' s hsame hwrong
  by_cases h0 : b[0] = 0x0F
  · obtain ⟨h24, hsame24⟩ := hwrong.resolve_left (not_not_intro h0)
    have hb' := decodeFrame_of_end_ne (hsame ▸ h0) (hsame24 ▸ h24)
    rw [← hsame24] at hb'
    exact ⟨_, exec_decode_of_eq s (decodeFrame_of_end_ne h0 h24), exec_decode_of_eq s hb'⟩
  · have hb' := decodeFrame_of_start_ne (hsame ▸ h0)
    rw [← hsame] at hb'
    exact ⟨_, exec_decode_of_eq s (decodeFrame_of_start_ne h0), exec_decode_of_eq s hb'⟩

end Sys2Proof.Proofs
end

section
/-! SUPPORT. One payload byte from the channels it holds parts of, and one channel from the bytes its parts stand in: the
general form of the spec's derived equations (spec/40_encode.md section 2, spec/41_decode.md section 3). -/

namespace Sys2Proof.Machine

variable (f : Frame) (B : Frame25)

/-- A byte under the mask 0xFF has the 8 low bits of the number. -/
theorem testBit_and_ff (n t : Nat) : (n &&& 0xFF).testBit t = (n.testBit t && decide (t < 8)) := by
  rw [Nat.testBit_and, show 0xFF = 2 ^ 8 - 1 by decide, Nat.testBit_two_pow_sub_one]

/-- A number under the mask 0x7FF has its 11 low bits. -/
theorem testBit_and_7ff (n t : Nat) : (n &&& 0x7FF).testBit t = (n.testBit t && decide (t < 11)) := by
  rw [Nat.testBit_and, show 0x7FF = 2 ^ 11 - 1 by decide, Nat.testBit_two_pow_sub_one]

/-- R53: bit `t` of payload byte `j` of ENCODE's result is stream bit `8*(j - 1) + t`. -/
theorem encodeFrame_byte_testBit {j : Nat} (h1 : 1 ≤ j) (h22 : j ≤ 22) (t : Nat) :
    (byteAt (encodeFrame f) j).toNat.testBit t = ((packChannels f.ch).testBit (8 * (j - 1) + t) && decide (t < 8)) := by
  have hbyte := encodeFrame_payload_toNat f (k := j - 1) (by omega)
  rw [Nat.add_sub_cancel' h1] at hbyte
  rw [hbyte, show 256 = 2 ^ 8 by decide, Nat.testBit_mod_two_pow, Nat.testBit_shiftRight, Bool.and_comm]

/-- R53: stream bit `11*i + u` is bit `u` of channel `i` under the mask. -/
theorem packChannels_testBit_channel (i : Fin 16) {u : Nat} (hu : u < 11) :
    (packChannels f.ch).testBit (11 * i.val + u) = (f.ch[i].toNat &&& 0x07FF).testBit u := by
  rw [packChannels_testBit, dif_pos (by omega), testBit_and_7ff, decide_eq_true hu, Bool.and_true]
  simp only [show (11 * i.val + u) / 11 = i.val by omega, show (11 * i.val + u) % 11 = u by omega]
  rfl

/-- A masked channel has no bit above bit 10. -/
theorem masked_testBit_high (n : Nat) {u : Nat} (hu : 11 ≤ u) : (n &&& 0x07FF).testBit u = false := by
  rw [testBit_and_7ff, decide_eq_false (by omega), Bool.and_false]

/-- A payload byte that lies inside the field of channel `i`, from the field's bit `r` on. -/
theorem encodeFrame_byte_inside {j r : Nat} {i : Fin 16} (hj : 8 * j = 11 * i.val + r + 8 := by decide)
    (hr : r ≤ 3 := by decide) :
    (byteAt (encodeFrame f) j).toNat = ((f.ch[i].toNat &&& 0x07FF) >>> r) &&& 0xFF := by
  refine Nat.eq_of_testBit_eq fun t => ?_
  rw [encodeFrame_byte_testBit f (by omega) (by omega), testBit_and_ff, Nat.testBit_shiftRight]
  by_cases ht : t < 8
  · rw [show 8 * (j - 1) + t = 11 * i.val + (r + t) by omega, packChannels_testBit_channel f i (by omega)]
  · rw [decide_eq_false ht, Bool.and_false, Bool.and_false]

/-- A payload byte that begins at bit `r` of channel `i` and from its own bit `l` on holds channel `i + 1`. -/
theorem encodeFrame_byte_across {j r l : Nat} {i i' : Fin 16} (hj : 8 * j = 11 * i.val + r + 8 := by decide)
    (hi' : i'.val = i.val + 1 := by decide) (hl : r + l = 11 := by decide) :
    (byteAt (encodeFrame f) j).toNat =
      (((f.ch[i].toNat &&& 0x07FF) >>> r) ||| ((f.ch[i'].toNat &&& 0x07FF) <<< l)) &&& 0xFF := by
  refine Nat.eq_of_testBit_eq fun t => ?_
  rw [encodeFrame_byte_testBit f (by omega) (by omega), testBit_and_ff, Nat.testBit_or, Nat.testBit_shiftRight,
    Nat.testBit_shiftLeft]
  by_cases ht : t < 8
  · by_cases htl : t < l
    · rw [show 8 * (j - 1) + t = 11 * i.val + (r + t) by omega, packChannels_testBit_channel f i (by omega),
        decide_eq_false (by omega : ¬ t ≥ l), Bool.false_and, Bool.or_false]
    · rw [show 8 * (j - 1) + t = 11 * i'.val + (t - l) by omega, packChannels_testBit_channel f i' (by omega),
        decide_eq_true (by omega : t ≥ l), masked_testBit_high _ (by omega : 11 ≤ r + t), Bool.true_and, Bool.false_or]
  · rw [decide_eq_false ht, Bool.and_false, Bool.and_false]

/-- R60, R64: bit `t` of an extracted channel is bit `(11*i + t) mod 8` of payload byte `1 + (11*i + t)/8`. -/
theorem extractFrame_ch_testBit (i : Fin 16) (t : Nat) :
    (extractFrame B).ch[i].toNat.testBit t =
      ((byteAt B (1 + (11 * i.val + t) / 8)).toNat.testBit ((11 * i.val + t) % 8) && decide (t < 11)) := by
  rw [BitVec.testBit_toNat, BitVec.testBit_toNat, Fin.getElem_fin, extractFrame_bit B t i.isLt, Bool.and_comm]

/-- A byte has no bit above bit 7. -/
theorem byte_testBit_high (v : Byte) {u : Nat} (hu : 8 ≤ u) : v.toNat.testBit u = false := by
  rw [BitVec.testBit_toNat, BitVec.getLsbD_of_ge v u hu]

/-- A channel that begins at bit `r` of byte `j` and ends in byte `j + 1`. -/
theorem extractFrame_ch_two_bytes {i : Fin 16} {j j' r l : Nat} (hi : 8 * j + r = 11 * i.val + 8 := by decide)
    (hj : j' = j + 1 := by decide) (hr : r ≤ 5 := by decide) (hl : r + l = 8 := by decide) :
    (extractFrame B).ch[i].toNat =
      (((byteAt B j).toNat >>> r) ||| ((byteAt B j').toNat <<< l)) &&& 0x7FF := by
  refine Nat.eq_of_testBit_eq fun t => ?_
  rw [extractFrame_ch_testBit, testBit_and_7ff, Nat.testBit_or, Nat.testBit_shiftRight, Nat.testBit_shiftLeft]
  by_cases ht : t < 11
  · by_cases htl : t < l
    · rw [show 1 + (11 * i.val + t) / 8 = j by omega, show (11 * i.val + t) % 8 = r + t by omega,
        decide_eq_false (by omega : ¬ t ≥ l), Bool.false_and, Bool.or_false]
    · rw [show 1 + (11 * i.val + t) / 8 = j' by omega, show (11 * i.val + t) % 8 = t - l by omega,
        byte_testBit_high _ (by omega : 8 ≤ r + t), decide_eq_true (by omega : t ≥ l), Bool.true_and, Bool.false_or]
  · rw [decide_eq_false ht, Bool.and_false, Bool.and_false]

/-- A channel that begins at bit `r` of byte `j` and ends in byte `j + 2`. -/
theorem extractFrame_ch_three_bytes {i : Fin 16} {j j' j'' r l l' : Nat} (hi : 8 * j + r = 11 * i.val + 8 := by decide)
    (hj : j' = j + 1 := by decide) (hj' : j'' = j + 2 := by decide) (hl : r + l = 8 := by decide)
    (hl' : r + l' = 16 := by decide) :
    (extractFrame B).ch[i].toNat =
      (((byteAt B j).toNat >>> r) ||| ((byteAt B j').toNat <<< l) ||| ((byteAt B j'').toNat <<< l')) &&& 0x7FF := by
  refine Nat.eq_of_testBit_eq fun t => ?_
  rw [extractFrame_ch_testBit, testBit_and_7ff, Nat.testBit_or, Nat.testBit_or, Nat.testBit_shiftRight,
    Nat.testBit_shiftLeft, Nat.testBit_shiftLeft]
  by_cases ht : t < 11
  · by_cases htl : t < l
    · rw [show 1 + (11 * i.val + t) / 8 = j by omega, show (11 * i.val + t) % 8 = r + t by omega,
        decide_eq_false (by omega : ¬ t ≥ l), decide_eq_false (by omega : ¬ t ≥ l'), Bool.false_and, Bool.false_and,
        Bool.or_false, Bool.or_false]
    · by_cases htl' : t < l'
      · rw [show 1 + (11 * i.val + t) / 8 = j' by omega, show (11 * i.val + t) % 8 = t - l by omega,
          byte_testBit_high _ (by omega : 8 ≤ r + t), decide_eq_true (by omega : t ≥ l),
          decide_eq_false (by omega : ¬ t ≥ l'), Bool.true_and, Bool.false_or, Bool.false_and, Bool.or_false]
      · rw [show 1 + (11 * i.val + t) / 8 = j'' by omega, show (11 * i.val + t) % 8 = t - l' by omega,
          byte_testBit_high _ (by omega : 8 ≤ r + t), byte_testBit_high _ (by omega : 8 ≤ t - l),
          decide_eq_true (by omega : t ≥ l'), Bool.and_false, Bool.true_and, Bool.or_false, Bool.false_or]
  · rw [decide_eq_false ht, Bool.and_false, Bool.and_false]

/-- The bytes of a wire frame, as numbers, in a list. -/
theorem toList_map_toNat : B.toList.map BitVec.toNat = (List.range 25).map fun j => (byteAt B j).toNat := by
  refine List.ext_getElem (by simp) fun n h _ => ?_
  have hn : n < 25 := by simpa using h
  simp only [List.getElem_map, List.getElem_range, Vector.getElem_toList, byteAt_of_lt B hn]

/-- The channels of a Frame, as numbers, in a list. -/
theorem channels_toList_map_toNat : f.ch.toList.map BitVec.toNat = (List.finRange 16).map fun i => f.ch[i].toNat := by
  refine List.ext_getElem (by simp) fun n _ _ => ?_
  simp only [List.getElem_map, List.getElem_finRange, Vector.getElem_toList, Fin.getElem_fin, Fin.val_cast]

end Sys2Proof.Machine
end

section
/-! CLAIMS. The spec's derived per-byte and per-channel equations. -/

namespace Sys2Proof.Proofs

open Sys2Proof.Machine

/-- Settles O4: each payload byte lies inside one channel's field or across two. -/
theorem encodePerByteEquations : Obligations.EncodePerByteEquations := by
  intro f s
  refine ⟨encodeFrame f, exec_encode f s, ?_⟩
  have hstart : (byteAt (encodeFrame f) 0).toNat = 0x0F := by rw [byteAt_of_lt _ (by decide), encodeFrame_start]; rfl
  have hend : (byteAt (encodeFrame f) 24).toNat = 0x00 := by rw [byteAt_of_lt _ (by decide), encodeFrame_end]; rfl
  have hflags := (congrArg BitVec.toNat (byteAt_of_lt (encodeFrame f) (j := 23) (by decide))).trans
    ((encodeFrame_flags_toNat f).trans (flagByte_eq_toNat f.flags))
  rw [toList_map_toNat]
  simp only [List.range_succ, List.range_zero, List.nil_append, List.cons_append, List.map_cons, List.map_nil,
    List.cons.injEq, and_true]
  exact ⟨hstart, encodeFrame_byte_inside f (r := 0), encodeFrame_byte_across f, encodeFrame_byte_across f,
    encodeFrame_byte_inside f, encodeFrame_byte_across f, encodeFrame_byte_across f, encodeFrame_byte_across f,
    encodeFrame_byte_inside f, encodeFrame_byte_across f, encodeFrame_byte_across f, encodeFrame_byte_inside f,
    encodeFrame_byte_inside f (r := 0), encodeFrame_byte_across f, encodeFrame_byte_across f,
    encodeFrame_byte_inside f, encodeFrame_byte_across f, encodeFrame_byte_across f, encodeFrame_byte_across f,
    encodeFrame_byte_inside f, encodeFrame_byte_across f, encodeFrame_byte_across f, encodeFrame_byte_inside f,
    hflags, hend⟩

/-- Settles O16: each channel stands in two bytes or in three. -/
theorem decodePerChannelEquations : Obligations.DecodePerChannelEquations := by
  intro b s hb
  refine ⟨extractFrame b, exec_decode_of_valid s hb, ?_⟩
  rw [channels_toList_map_toNat]
  simp only [List.finRange_succ, List.finRange_zero, List.map_cons, List.map_nil, List.cons.injEq, and_true]
  exact ⟨extractFrame_ch_two_bytes b (r := 0), extractFrame_ch_two_bytes b, extractFrame_ch_three_bytes b,
    extractFrame_ch_two_bytes b, extractFrame_ch_two_bytes b, extractFrame_ch_three_bytes b,
    extractFrame_ch_two_bytes b, extractFrame_ch_two_bytes b,
    extractFrame_ch_two_bytes b (r := 0), extractFrame_ch_two_bytes b, extractFrame_ch_three_bytes b,
    extractFrame_ch_two_bytes b, extractFrame_ch_two_bytes b, extractFrame_ch_three_bytes b,
    extractFrame_ch_two_bytes b, extractFrame_ch_two_bytes b⟩

end Sys2Proof.Proofs
end
